-- ==== Sys2Proof/Word.lean ====
section
/-! DEFINITION. The two bit-vector types of CORE and the 16-word state vector (spec 00_scope R10, R12). -/

namespace Sys2Proof

/-- A 32-bit word: a register, a bus value, a word of a state vector (R10: every value is unsigned). -/
abbrev Word := BitVec 32

/-- A byte of the message buffer, of a key, of a nonce or of a keystream block. -/
abbrev Byte := BitVec 8

/-- A state vector `S = (S[0], ..., S[15])`: the 4x4 matrix in row-major order (R12, R54). -/
abbrev Block := Vector Word 16

end Sys2Proof
end

