-- ==== Sys2Proof/Config.lean ====
section
/-! DEFINITION. What an implementation of CORE fixes (the open parameters of spec 00_scope R9) and the free values the
spec leaves open (R14: "any value ... a claim must hold for every draw"). -/

namespace Sys2Proof

/-- The two parameters the spec leaves OPEN (R9): BASE, the address of the register window, and MSG_BYTES, the size of
the message buffer. `Params.wf` (WellFormed.lean) says which values are legal. -/
structure Params where
  base     : Nat
  msgBytes : Nat
  deriving DecidableEq, Repr

/-- The spec's reference configuration of MSG_BYTES (R9: 4096).
DESIGN CHOICE for BASE (log 5): the spec gives it no value; the model's reset state uses 0. -/
def Params.reference : Params := { base := 0, msgBytes := 4096 }

/-- FREE VALUE (log 3, spec R85, R14): the data a read of TMPL, ORIG, X or MSG returns while a command is in flight,
for the `n`-th draw. Nothing is known of it. -/
opaque Config.anyRead (n : Nat) : Word

/-- FREE VALUE (log 4, spec R90, R231): the byte MSG holds at address `a` after the reset whose draw is `n`, until
something writes it. Nothing is known of it. -/
opaque Config.anyMsgByte (n a : Nat) : Byte

end Sys2Proof
end

