-- ==== Sys2Proof/Syntax.lean ====
section
/-! DEFINITION. The instructions of CORE: its eight commands, one constructor per row of spec/opcode_table.json
(spec 30_encoding R112). -/

namespace Sys2Proof

/-- A legal command (R112). QR's operands are state indices 0..15, every value legal, equal ones too (R113); no other
command has an operand field. -/
inductive Instr where
  | init
  | ldctr
  | qr (qa qb qc qd : Fin 16)
  | colr
  | diagr
  | ffwd
  | hash
  | crypt
  deriving DecidableEq, Repr

end Sys2Proof
end

