-- ==== Sys2Proof/WellFormed.lean ====
section
/-! DEFINITION. The checks on terms that can be ill formed: the parameters (spec 00_scope R9) and the raw command word
(spec 30_encoding R114). A term of `Instr` needs no check: QR's indices are `Fin 16` and every value is legal (R113). -/

namespace Sys2Proof

/-- R9, D6: MSG_BYTES is a multiple of 4 with 64 <= MSG_BYTES <= 0xF000. -/
abbrev Params.wf (p : Params) : Prop :=
  p.msgBytes % 4 = 0 ∧ 64 ≤ p.msgBytes ∧ p.msgBytes ≤ 0xF000

/-- Bits 3:0 of a command word, R111's OP, as a number. -/
def opNumber (w : Word) : Nat := w.toNat % 16

/-- The illegal command words, in the three cases of R114: OP is 0x0 or 0x9..0xF; OP is one of the seven commands
without operands and some bit of 31:4 is 1; OP is 0x3 and some bit of 7:4 or 31:24 is 1. -/
abbrev IllegalWord (w : Word) : Prop :=
  (opNumber w = 0 ∨ 9 ≤ opNumber w) ∨
  (opNumber w ∈ [1, 2, 4, 5, 6, 7, 8] ∧ w.toNat / 2 ^ 4 ≠ 0) ∨
  (opNumber w = 3 ∧ (w.toNat / 2 ^ 4 % 2 ^ 4 ≠ 0 ∨ w.toNat / 2 ^ 24 ≠ 0))

end Sys2Proof
end

