-- ==== Sys2Proof/Decode.lean ====
section
/-! DEFINITION. Decoding a command word, the encoder, and the pseudo-commands (spec 30_encoding R111 to R117). -/

namespace Sys2Proof

/-- Why a word is no command (R114). Both complete as IllegalCommand. -/
inductive Reject where
  /-- OP is 0x0 or 0x9..0xF. -/
  | unknownOp
  /-- OP names a command and a bit the format reserves is 1. -/
  | reservedBits
  deriving DecidableEq, Repr

/-- What the decoder answers: a command, or a rejection by name. -/
inductive Decoded where
  | command (i : Instr)
  | illegal (r : Reject)
  deriving DecidableEq, Repr

/-- The 4-bit field of `w` whose lowest bit is bit `lo`. -/
def nibble (w : Word) (lo : Nat) : Fin 16 := (w.extractLsb' lo 4).toFin

/-- R111's field QA, bits 11:8. -/
def fieldQA (w : Word) : Fin 16 := nibble w 8
/-- R111's field QB, bits 15:12. -/
def fieldQB (w : Word) : Fin 16 := nibble w 12
/-- R111's field QC, bits 19:16. -/
def fieldQC (w : Word) : Fin 16 := nibble w 16
/-- R111's field QD, bits 23:20. -/
def fieldQD (w : Word) : Fin 16 := nibble w 20

/-- The name of the rejection of a word that R112 selects no row for. -/
def rejectionOf (w : Word) : Reject :=
  if (nibble w 0).val = 0 ∨ 9 ≤ (nibble w 0).val then .unknownOp else .reservedBits

/-- R112: each row selected by its exact condition on the word; every other word is illegal (R114, R115). -/
def decode (w : Word) : Decoded :=
  if w = 0x00000001 then .command .init
  else if w = 0x00000002 then .command .ldctr
  else if w &&& 0xFF0000FF = 0x00000003 then .command (.qr (fieldQA w) (fieldQB w) (fieldQC w) (fieldQD w))
  else if w = 0x00000004 then .command .colr
  else if w = 0x00000005 then .command .diagr
  else if w = 0x00000006 then .command .ffwd
  else if w = 0x00000007 then .command .hash
  else if w = 0x00000008 then .command .crypt
  else .illegal (rejectionOf w)

/-- The decoder's instruction, if it reads one. -/
def Decoded.instr? : Decoded → Option Instr
  | .command i => some i
  | .illegal _ => none

/-- A 4-bit operand placed with its lowest bit at bit `lo` of the word. -/
def placed (q : Fin 16) (lo : Nat) : Word := BitVec.ofNat 32 q.val <<< lo

/-- The word of a command: R111's format with R112's OP; QR as R116 writes it, `0x3 | a << 8 | b << 12 | c << 16 |
d << 20`. -/
def encode : Instr → Word
  | .init  => 0x00000001
  | .ldctr => 0x00000002
  | .qr qa qb qc qd => 0x00000003 ||| placed qa 8 ||| placed qb 12 ||| placed qc 16 ||| placed qd 20
  | .colr  => 0x00000004
  | .diagr => 0x00000005
  | .ffwd  => 0x00000006
  | .hash  => 0x00000007
  | .crypt => 0x00000008

/-- The instruction the decoder reads from a row's word, bits numbered as spec/opcode_table.json numbers them. Every row
is one 32-bit word (R111), so the word is the number itself. A number that does not fit in one word is no command. -/
def decodeTableWord (_nbits w : Nat) : Option Instr :=
  if w < 2 ^ 32 then (decode (BitVec.ofNat 32 w)).instr? else none

/-- The pseudo-commands of R117. -/
inductive Pseudo where
  | dround
  | block
  | qrcol (k : Fin 4)
  | qrdiag (k : Fin 4)
  deriving DecidableEq, Repr

/-- R117's expansions, each command waited for before the next. -/
def Pseudo.expand : Pseudo → List Instr
  | .dround   => [.colr, .diagr]
  | .block    => [.ldctr, .hash]
  | .qrcol k  => [.qr (Fin.ofNat 16 k.val) (Fin.ofNat 16 (k.val + 4)) (Fin.ofNat 16 (k.val + 8)) (Fin.ofNat 16 (k.val + 12))]
  | .qrdiag k => [.qr (Fin.ofNat 16 k.val) (Fin.ofNat 16 (4 + (k.val + 1) % 4)) (Fin.ofNat 16 (8 + (k.val + 2) % 4))
                      (Fin.ofNat 16 (12 + (k.val + 3) % 4))]

end Sys2Proof
end

