-- ==== Sys2Proof/Machine/Codec.lean ====
section
/-! DEFINITION. The byte/word codec (spec 20_memory R92 to R94). -/

namespace Sys2Proof.Machine

/-- R11: `byte_j(w)` is `w[8j+7:8j]`. -/
def byteOf (w : Word) (j : Nat) : Byte := w.extractLsb' (8 * j) 8

/-- R92: byte `o` is the least significant. -/
def wordFromBytesLE (bytes : List Byte) (o : Nat) : Word :=
  (bytes.getD o 0).setWidth 32
    ||| ((bytes.getD (o + 1) 0).setWidth 32 <<< 8)
    ||| ((bytes.getD (o + 2) 0).setWidth 32 <<< 16)
    ||| ((bytes.getD (o + 3) 0).setWidth 32 <<< 24)

/-- The four bytes of a word, the least significant first: the order in which the port and R49, R50, R94 see a word. -/
def wordBytesLE (w : Word) : List Byte := [byteOf w 0, byteOf w 1, byteOf w 2, byteOf w 3]

/-- R93: the most significant byte first. No command produces it. -/
def bytesFromWordBE (w : Word) : List Byte := [byteOf w 3, byteOf w 2, byteOf w 1, byteOf w 0]

/-- R93: the word `{byte_0(w), byte_1(w), byte_2(w), byte_3(w)}`. No command produces it. -/
def bswap32 (w : Word) : Word := byteOf w 0 ++ byteOf w 1 ++ byteOf w 2 ++ byteOf w 3

/-- The bytes held by a file of registers: byte `4n + j` is `byte_j` of word `n` (R49, R50). -/
def fileBytes {n : Nat} (ws : Vector Word n) : List Byte := ws.toList.flatMap wordBytesLE

/-- R94: `serLE(S)[4*i + j] = byte_j(S[i])`, the 64 bytes of a keystream block. -/
def serLE (s : Block) : List Byte := fileBytes s

end Sys2Proof.Machine
end

