-- ==== Sys2Proof/Machine/State.lean ====
section
/-! DEFINITION. The state of CORE as plain data (spec 10_state, 20_memory R90, R100), the reasons a step can stop (there
are none in the spec), and the state after reset (spec 70_reset_and_hazards R231). -/

namespace Sys2Proof.Machine

/-- The two dialects (R2, R33); the code of IETF is 0 and of DJB 1. -/
inductive Dialect where
  | ietf
  | djb
  deriving DecidableEq, Repr

/-- The errors a command can complete with, R200's codes 1 to 7 in order. Codes 8..15 are never written. -/
inductive CmdError where
  | invalidKeyLength
  | invalidNonceLength
  | counterOverflow
  | invalidRoundsValue
  | illegalCommand
  | templateNotBuilt
  | lengthOverrun
  deriving DecidableEq, Repr

/-- STATUS by its fields (R40); its reserved bits hold nothing. `err` is `none` for code 0. The word a host reads is
`Status.word` (Flags.lean). -/
structure Status where
  busy     : Bool
  done     : Bool
  tvalid   : Bool
  tdialect : Dialect
  tkey32   : Bool
  wovr     : Bool
  err      : Option CmdError
  deriving DecidableEq, Repr

/-- The values of the registers a command reads, captured when it is issued (R56, R100): CFG, LEN, CTR_LO, CTR_HI, KEYn,
NONCEn, STATUS.T* and the state registers. -/
structure Operands where
  cfg      : Word
  len      : Word
  ctrLo    : Word
  ctrHi    : Word
  key      : Vector Word 8
  nonce    : Vector Word 3
  tvalid   : Bool
  tdialect : Dialect
  tkey32   : Bool
  tmpl     : Block
  orig     : Block
  x        : Block
  deriving DecidableEq, Repr

/-- A command in flight: the issued word with its captured operands (R56). -/
structure Pending where
  word     : Word
  operands : Operands
  deriving DecidableEq, Repr

/-- The message buffer MSG (R90). `cells` lists the bytes written since the last reset, addresses strictly rising; a byte
that is not listed is not known and reads as the free value `Config.anyMsgByte epoch a` (log 4). -/
structure Memory where
  cells : List Host.Cell
  epoch : Nat
  deriving DecidableEq, Repr

/-- What CRYPT's loop writes block after block (R182): ORIG, X and MSG. -/
structure BlockWork where
  orig : Block
  x    : Block
  msg  : Memory
  deriving DecidableEq, Repr

/-- The access widths of the host port, n in {1, 2, 4} bytes (R80). -/
inductive Width where
  | byte
  | half
  | word
  deriving DecidableEq, Repr

/-- The registers of R30's map, by name; `reserved` is any reserved offset. -/
inductive Reg where
  | cfg
  | cmd
  | status
  | len
  | ctrLo
  | ctrHi
  | key (n : Fin 8)
  | nonce (n : Fin 3)
  | tmpl (i : Fin 16)
  | orig (i : Fin 16)
  | x (i : Fin 16)
  | reserved
  deriving DecidableEq, Repr

/-- What an access is addressed to (R81, R83, R84). -/
inductive Target where
  /-- A legal access to a register. -/
  | register (r : Reg)
  /-- A legal access to the MSG window, at buffer address `a`. -/
  | message (a : Nat)
  /-- An access CORE answers with ERR. -/
  | refused
  /-- An access that is not addressed to CORE. -/
  | elsewhere
  deriving DecidableEq, Repr

/-- The port's answer to a transaction (R80). -/
inductive Reply where
  /-- OK, with the data of a read, zero-extended from its width. -/
  | data (v : Word)
  /-- OK, to a write. -/
  | written
  /-- ERR: a read returns no data and a write has no effect. -/
  | error
  /-- CORE gives no answer: the access is not addressed to it (R81; log 6). -/
  | unanswered
  deriving DecidableEq, Repr

/-- One turn of one agent (R5, R230): what CORE sees happen. -/
inductive Turn where
  /-- The engine's turn: it completes the command in flight, if there is one (R203). -/
  | engine
  /-- The host reads `n` bytes at bus address `addr` (R80; the offset is `addr - BASE`). -/
  | read (addr : Nat) (n : Width)
  /-- The host writes the low `n` bytes of `v` at bus address `addr` (R80). -/
  | write (addr : Nat) (n : Width) (v : Word)
  /-- The reset input is asserted (R230). -/
  | reset
  deriving DecidableEq, Repr

/-- A line of R118's host programs; offsets are from BASE. -/
inductive HostLine where
  | w (off : Nat) (value : Word)
  | wh (off : Nat) (value : Word)
  | wb (off : Nat) (value : Word)
  | r (off : Nat)
  | cmd (i : Instr)
  /-- `WAIT`: read STATUS again and again until bit 0 is 0. -/
  | wait
  deriving DecidableEq, Repr

/-- One slot of the schedule. DESIGN CHOICE (log 1): the order in which the agents move is data in State. -/
inductive Slot where
  /-- This very turn: the engine's, a bus master's transaction, or reset. -/
  | turn (t : Turn)
  /-- The host that runs `State.program` makes its next transaction. -/
  | host
  deriving DecidableEq, Repr

/-- The state of CORE. The first thirteen fields are the spec's (INVENTORY.md lists the rule of each, in this order,
after the parameters); the last four are the model's own. -/
structure State where
  /-- The open parameters BASE and MSG_BYTES (R9; log 5): fixed along every run. -/
  params   : Params
  /-- CFG as the host reads it: its reserved bits are 0 (R32). -/
  cfg      : Word
  status   : Status
  len      : Word
  ctrLo    : Word
  ctrHi    : Word
  key      : Vector Word 8
  nonce    : Vector Word 3
  tmpl     : Block
  orig     : Block
  x        : Block
  /-- PEND, the command in flight (R56). -/
  pend     : Option Pending
  msg      : Memory
  /-- The answer to the last transaction since reset, the model's own (log 2). -/
  reply    : Option Reply
  /-- How many free values have been drawn, the model's own (log 3). -/
  draws    : Nat
  /-- The lines the host has still to run (R118), the model's own (log 1). -/
  program  : List HostLine
  /-- The slots still to come, the model's own (log 1); when it is empty the engine has every turn. -/
  schedule : List Slot
  deriving DecidableEq, Repr

/-- There is no fault: "No behaviour of CORE is `stuck`" (spec 93_implementation_defined), an error is a result code of a
command after which the machine goes on (R203, R205; log 12). -/
inductive Fault where
  deriving DecidableEq, Repr

/-- Why an instruction has no meaning. -/
inductive Refusal where
  /-- Raised by nobody: it stands for an arm of `exec` without a meaning, and every arm has one. Safe. -/
  | notModelled (mnemonic : String)
  deriving DecidableEq, Repr

/-- STATUS after reset, 0x00000000 (R40, R231). -/
def Status.reset : Status :=
  { busy := false, done := false, tvalid := false, tdialect := .ietf, tkey32 := false, wovr := false, err := none }

/-- CORE right after reset (R231). Parameters: the reference configuration (log 5). MSG: any value, nothing listed
(log 4). The fields `reply`, `draws`, `program`, `schedule` and `msg.epoch` are the model's own (logs 1 to 4). -/
def State.reset : State :=
  { params   := Params.reference
    cfg      := 0x0C201400
    status   := Status.reset
    len      := 0
    ctrLo    := 0
    ctrHi    := 0
    key      := Vector.replicate 8 0
    nonce    := Vector.replicate 3 0
    tmpl     := Vector.replicate 16 0
    orig     := Vector.replicate 16 0
    x        := Vector.replicate 16 0
    pend     := none
    msg      := { cells := [], epoch := 0 }
    reply    := none
    draws    := 1
    program  := []
    schedule := [] }

end Sys2Proof.Machine
end

