-- ==== Sys2Proof/Machine/Operands.lean ====
section
/-! DEFINITION. The operands of commands: CFG's fields (spec 10_state R32 to R38), the dialect parameters (40 R130), the
start counter (40 R135), the key and nonce bytes (10 R49, R50), and the operands captured at issue (20_memory R100). -/

namespace Sys2Proof.Machine

/-- The bits of CFG that are not reserved (R32): 2:0, 15:8, 21:16, 27:24. -/
def cfgMask : Word := 0x0F3FFF07

/-- CFG.DIALECT, bit 0 (R33). -/
def cfgDialect (cfg : Word) : Dialect := if cfg.getLsbD 0 then .djb else .ietf
/-- CFG.CTR_OVR, bit 1 (R34). -/
def cfgCtrOvr (cfg : Word) : Bool := cfg.getLsbD 1
/-- CFG.IE, bit 2 (R35). -/
def cfgIe (cfg : Word) : Bool := cfg.getLsbD 2
/-- CFG.ROUNDS, bits 15:8, as a count (R36). -/
def cfgRounds (cfg : Word) : Nat := (cfg.extractLsb' 8 8).toNat
/-- CFG.KEYLEN, bits 21:16, in bytes (R37). -/
def cfgKeyLen (cfg : Word) : Nat := (cfg.extractLsb' 16 6).toNat
/-- CFG.NONCELEN, bits 27:24, in bytes (R38). -/
def cfgNonceLen (cfg : Word) : Nat := (cfg.extractLsb' 24 4).toNat

/-- R36: a round count is legal iff it is not 0 and even. -/
def roundsLegal (r : Nat) : Bool := r != 0 && r % 2 == 0

/-- R130: counterBits(d). -/
def Dialect.counterBits : Dialect → Nat
  | .ietf => 32
  | .djb  => 64

/-- R130: nonceBits(d). -/
def Dialect.nonceBits : Dialect → Nat
  | .ietf => 96
  | .djb  => 64

/-- R130: nonceLen(d) in bytes. -/
def Dialect.nonceLen (d : Dialect) : Nat := d.nonceBits / 8

/-- R130: initialCounterValue(d). -/
def Dialect.initialCounter : Dialect → Nat
  | .ietf => 1
  | .djb  => 0

/-- The registers' values now: what issuing a command captures (R100). -/
def State.capture (s : State) : Operands :=
  { cfg := s.cfg, len := s.len, ctrLo := s.ctrLo, ctrHi := s.ctrHi, key := s.key, nonce := s.nonce
    tvalid := s.status.tvalid, tdialect := s.status.tdialect, tkey32 := s.status.tkey32
    tmpl := s.tmpl, orig := s.orig, x := s.x }

/-- The operands the engine runs a command on: those captured by the command in flight (R100, R203). Where none is in
flight the registers as they stand (log 7): `exec` is then the command issued and completed at once. -/
def State.operands (s : State) : Operands :=
  match s.pend with
  | some p => p.operands
  | none   => s.capture

/-- R48: `ctr_req = {CTR_HI, CTR_LO}`. -/
def Operands.requestedCounter (o : Operands) : Nat := o.ctrHi.toNat * 2 ^ 32 + o.ctrLo.toNat

/-- R135: the start counter, an unbounded natural number. -/
def Operands.startCounter (o : Operands) : Nat :=
  if cfgCtrOvr o.cfg then o.requestedCounter else o.tdialect.initialCounter

/-- R49, R133: key bytes 0 .. KEYLEN-1. -/
def Operands.keyBytes (o : Operands) : List Byte := (fileBytes o.key).take (cfgKeyLen o.cfg)

/-- R50, R133: nonce bytes 0 .. NONCELEN-1. -/
def Operands.nonceBytes (o : Operands) : List Byte := (fileBytes o.nonce).take (cfgNonceLen o.cfg)

end Sys2Proof.Machine
end

