-- ==== Sys2Proof/Machine/Flags.lean ====
section
/-! DEFINITION. STATUS: its word as the host reads it, and the events that write it (spec 10_state R40 to R46, 60 R200,
R210). -/

namespace Sys2Proof.Machine

/-- R200's number of an error. -/
def CmdError.code : CmdError → BitVec 4
  | .invalidKeyLength   => 1
  | .invalidNonceLength => 2
  | .counterOverflow    => 3
  | .invalidRoundsValue => 4
  | .illegalCommand     => 5
  | .templateNotBuilt   => 6
  | .lengthOverrun      => 7

/-- STATUS.ERR, bits 11:8 (R40): 0 for success. -/
def Status.errCode (f : Status) : BitVec 4 :=
  match f.err with
  | none   => 0
  | some e => e.code

/-- R33: the code of a dialect. -/
def Dialect.code : Dialect → Bool
  | .ietf => false
  | .djb  => true

/-- A one-bit field at bit `i` of a word. -/
def flagBit (b : Bool) (i : Nat) : Word := if b then 1#32 <<< i else 0

/-- STATUS as a 32-bit read returns it (R40): reserved bits 7:6 and 31:12 are 0. -/
def Status.word (f : Status) : Word :=
  flagBit f.busy 0 ||| flagBit f.done 1 ||| flagBit f.tvalid 2 ||| flagBit f.tdialect.code 3 ||| flagBit f.tkey32 4
    ||| flagBit f.wovr 5 ||| (f.errCode.setWidth 32 <<< 8)

/-- R110: issuing sets BUSY and clears DONE and ERR. -/
def Status.issued (f : Status) : Status := { f with busy := true, done := false, err := none }

/-- R203: completing records the code, clears BUSY and sets DONE. -/
def Status.completed (f : Status) (e : Option CmdError) : Status := { f with busy := false, done := true, err := e }

/-- R46: a host write `v` clears DONE where bit 1 is 1 and WOVR where bit 5 is 1. -/
def Status.acked (f : Status) (v : Word) : Status :=
  { f with done := f.done && !v.getLsbD 1, wovr := f.wovr && !v.getLsbD 5 }

/-- R44, R86: a dropped write sets WOVR. -/
def Status.dropped (f : Status) : Status := { f with wovr := true }

/-- R43, R133: what a successful INIT writes. -/
def Status.built (f : Status) (d : Dialect) (key32 : Bool) : Status :=
  { f with tvalid := true, tdialect := d, tkey32 := key32 }

/-- R210: the interrupt output, `irq = CFG.IE & STATUS.DONE`. -/
def State.irq (s : State) : Bool := cfgIe s.cfg && s.status.done

end Sys2Proof.Machine
end

