-- ==== Sys2Proof/Machine/Ops.lean ====
section
/-! DEFINITION. The named operations over the message buffer and the registers, and the three events that change control
state: issuing a command (spec 30_encoding R110), completing one (60 R203; CORE's only form of exception, R205), and
reset (70 R231). -/

namespace Sys2Proof.Machine

/-! ### The message buffer -/

/-- The value listed for address `a`, if one is. -/
def cellAt (a : Nat) : List Host.Cell → Option Byte
  | [] => none
  | (b, v) :: rest => if a = b then some v else cellAt a rest

/-- The list with `v` at address `a`, kept in rising order. -/
def putCell (a : Nat) (v : Byte) : List Host.Cell → List Host.Cell
  | [] => [(a, v)]
  | (b, w) :: rest =>
    if a < b then (a, v) :: (b, w) :: rest
    else if a = b then (a, v) :: rest
    else (b, w) :: putCell a v rest

/-- `MSG[a]` (R12). A byte nothing has written since reset is any value (R90; log 4). -/
def Memory.read (m : Memory) (a : Nat) : Byte := (cellAt a m.cells).getD (Config.anyMsgByte m.epoch a)

/-- `MSG[a] <- v` (R12). -/
def Memory.write (m : Memory) (a : Nat) (v : Byte) : Memory := { m with cells := putCell a v m.cells }

/-- R90: `MsgRead(a, n) = {MSG[a+n-1], ..., MSG[a+1], MSG[a]}`, zero-extended. -/
def Memory.readLE (m : Memory) (a : Nat) : Nat → Word
  | 0 => 0
  | n + 1 => (m.read a).setWidth 32 ||| (m.readLE (a + 1) n <<< 8)

/-- R90: `MsgWrite(a, n, v)` sets `MSG[a+k] <- v[8k+7:8k]` for k in 0..n-1. -/
def Memory.writeLE (m : Memory) (a : Nat) : Nat → Word → Memory
  | 0, _ => m
  | n + 1, v => (m.write a (byteOf v 0)).writeLE (a + 1) n (v >>> 8)

/-- `MSG[a + j] <- MSG[a + j] ^ ks[j]` for each byte of `ks` in order (R182's inner loop). -/
def Memory.xorBytes (m : Memory) (a : Nat) : List Byte → Memory
  | [] => m
  | k :: ks => (m.write a (m.read a ^^^ k)).xorBytes (a + 1) ks

/-- The canonical form: addresses strictly rising. An unlisted byte has no known value, so no entry can repeat it. -/
abbrev Memory.wf (m : Memory) : Prop := m.cells.Pairwise (fun c d => c.1 < d.1)

/-- Every listed byte lies in a buffer of `n` bytes (R90). -/
abbrev Memory.within (m : Memory) (n : Nat) : Prop := ∀ c ∈ m.cells, c.1 < n

/-! ### Registers -/

/-- The number of bytes of an access (R80). -/
def Width.bytes : Width → Nat
  | .byte => 1
  | .half => 2
  | .word => 4

/-- The low bytes of `v` that an access of this width transfers. -/
def Width.low : Width → Word → Word
  | .byte, v => v &&& 0x000000FF
  | .half, v => v &&& 0x0000FFFF
  | .word, v => v

/-- R30: the register at a word-aligned offset of the register region. -/
def Reg.ofOffset (off : Nat) : Reg :=
  if off = 0x000 then .cfg
  else if off = 0x004 then .cmd
  else if off = 0x008 then .status
  else if off = 0x00C then .len
  else if off = 0x010 then .ctrLo
  else if off = 0x014 then .ctrHi
  else if h : 0x020 ≤ off ∧ off < 0x040 then .key ⟨(off - 0x020) / 4, by omega⟩
  else if h : 0x040 ≤ off ∧ off < 0x04C then .nonce ⟨(off - 0x040) / 4, by omega⟩
  else if h : 0x100 ≤ off ∧ off < 0x140 then .tmpl ⟨(off - 0x100) / 4, by omega⟩
  else if h : 0x140 ≤ off ∧ off < 0x180 then .orig ⟨(off - 0x140) / 4, by omega⟩
  else if h : 0x180 ≤ off ∧ off < 0x1C0 then .x ⟨(off - 0x180) / 4, by omega⟩
  else .reserved

/-- R85: the registers whose reads are any value while a command is in flight. -/
def Reg.isStateWord : Reg → Bool
  | .tmpl _ | .orig _ | .x _ => true
  | .cfg | .cmd | .status | .len | .ctrLo | .ctrHi | .key _ | .nonce _ | .reserved => false

/-- The current value of a register, as R85 returns it; CMD and reserved offsets read 0 (R31, R39). -/
def State.readReg (s : State) : Reg → Word
  | .cfg      => s.cfg
  | .cmd      => 0
  | .status   => s.status.word
  | .len      => s.len
  | .ctrLo    => s.ctrLo
  | .ctrHi    => s.ctrHi
  | .key n    => s.key[n]
  | .nonce n  => s.nonce[n]
  | .tmpl i   => s.tmpl[i]
  | .orig i   => s.orig[i]
  | .x i      => s.x[i]
  | .reserved => 0

/-! ### Issue, completion, reset -/

/-- R110: the word and the operands it captures go in flight. Issue never fails. -/
def State.issue (s : State) (w : Word) : State :=
  { s with pend := some { word := w, operands := s.capture }, status := s.status.issued }

/-- R87: a legal write to a register while idle. RW registers keep their non-reserved fields; TMPL, ORIG and reserved
offsets ignore it; CMD issues (R110); STATUS acts as R46. -/
def State.writeReg (s : State) (v : Word) : Reg → State
  | .cfg      => { s with cfg := v &&& cfgMask }
  | .cmd      => s.issue v
  | .status   => { s with status := s.status.acked v }
  | .len      => { s with len := v }
  | .ctrLo    => { s with ctrLo := v }
  | .ctrHi    => { s with ctrHi := v }
  | .key n    => { s with key := s.key.set n v }
  | .nonce n  => { s with nonce := s.nonce.set n v }
  | .tmpl _   => s
  | .orig _   => s
  | .x i      => { s with x := s.x.set i v }
  | .reserved => s

/-- R203's completion fields: ERR, BUSY, DONE and PEND. -/
def State.completed (s : State) (e : Option CmdError) : State :=
  { s with status := s.status.completed e, pend := none }

/-- R203, R201: a command's run is its writes (the state that holds them) or an error. Success keeps the writes; an error
keeps none of them. This is CORE's taking of an exception: it saves nothing and goes nowhere (R205). -/
def State.complete (s : State) : Except CmdError State → Host.Outcome State Fault Refusal
  | .ok t    => .next (t.completed none)
  | .error e => .next (s.completed (some e))

/-- R206: acknowledging a completion, the nearest thing to a return: DONE is cleared, nothing is restored. -/
def State.acknowledge (s : State) : State := s.writeReg 0x00000002 .status

/-- R231: the reset action. Parameters, the host's program and the slots to come are not state of CORE and stay; MSG becomes any value, a
fresh draw (log 4), and any command in flight is abandoned (R232; log 9). -/
def State.resetAction (s : State) : State :=
  { State.reset with
    params := s.params
    msg := { cells := [], epoch := s.draws }
    draws := s.draws + 1
    program := s.program
    schedule := s.schedule }

end Sys2Proof.Machine
end

