-- ==== Sys2Proof/Machine/Mixing.lean ====
section
/-! DEFINITION. ARX mixing: QR, COLR and DIAGR (spec 41_arx_mixing). -/

namespace Sys2Proof.Machine

/-- R150: the circular left rotation of a 32-bit word, for s in 1..31. -/
def rotl32 (x : Word) (s : Nat) : Word := (x <<< s) ||| (x >>> (32 - s))

/-- One ARX step of R151: `x1 += x2; x3 ^= x1; x3 = rotateLeft(x3, s)`; the answer is the new x1 and x3. -/
def arxStep (x1 x2 x3 : Word) (s : Nat) : Word × Word := (x1 + x2, rotl32 (x3 ^^^ (x1 + x2)) s)

/-- R151: four ARX steps, shifts 16, 12, 8, 7. -/
def quarterround (a b c d : Word) : Word × Word × Word × Word :=
  let (a, d) := arxStep a b d 16
  let (c, b) := arxStep c d b 12
  let (a, d) := arxStep a b d 8
  let (c, b) := arxStep c d b 7
  (a, b, c, d)

/-- R152's pseudocode on a state vector: all four words are read first, then written in the order a, b, c, d; a later
write to an index wins. -/
def quarterroundAt (s : Block) (i j k l : Fin 16) : Block :=
  let (a, b, c, d) := quarterround s[i] s[j] s[k] s[l]
  (((s.set i a).set j b).set k c).set l d

/-- R153: the four columns, in order. -/
def colRound (s : Block) : Block :=
  let s := quarterroundAt s 0 4 8 12
  let s := quarterroundAt s 1 5 9 13
  let s := quarterroundAt s 2 6 10 14
  quarterroundAt s 3 7 11 15

/-- R155: the four diagonals, in order. -/
def diagRound (s : Block) : Block :=
  let s := quarterroundAt s 0 5 10 15
  let s := quarterroundAt s 1 6 11 12
  let s := quarterroundAt s 2 7 8 13
  quarterroundAt s 3 4 9 14

/-- R158: one column round, then one diagonal round. -/
def doubleRound (s : Block) : Block := diagRound (colRound s)

/-- QR (R152). -/
def execQr (qa qb qc qd : Fin 16) (s : State) : Host.Outcome State Fault Refusal :=
  s.complete (.ok { s with x := quarterroundAt s.operands.x qa qb qc qd })

/-- COLR (R154). -/
def execColr (s : State) : Host.Outcome State Fault Refusal :=
  s.complete (.ok { s with x := colRound s.operands.x })

/-- DIAGR (R156). -/
def execDiagr (s : State) : Host.Outcome State Fault Refusal :=
  s.complete (.ok { s with x := diagRound s.operands.x })

end Sys2Proof.Machine
end

