-- ==== Sys2Proof/Machine/Hash.lean ====
section
/-! DEFINITION. The hash function: FFWD and HASH (spec 42_hash). -/

namespace Sys2Proof.Machine

/-- The double round repeated `n` times (R170). -/
def doubleRounds : Nat → Block → Block
  | 0, s => s
  | n + 1, s => doubleRounds n (doubleRound s)

/-- Elementwise wrapping addition, R170's feed-forward step. -/
def feedForward (s o : Block) : Block := Vector.ofFn fun i => s[i] + o[i]

/-- R170: `r/2` double rounds, then the feed-forward of the input. The words are those CORE holds in X, not
byte-swapped (90_conflicts C1). -/
def chachaHash (s : Block) (r : Nat) : Block := feedForward (doubleRounds (r / 2) s) s

/-- FFWD (R171). -/
def execFfwd (s : State) : Host.Outcome State Fault Refusal :=
  s.complete (.ok { s with x := feedForward s.operands.x s.operands.orig })

/-- R172's pseudocode on captured operands. -/
def runHash (o : Operands) (s : State) : Except CmdError State :=
  if roundsLegal (cfgRounds o.cfg) = false then .error .invalidRoundsValue
  else .ok { s with orig := o.x, x := chachaHash o.x (cfgRounds o.cfg) }

/-- HASH (R172). -/
def execHash (s : State) : Host.Outcome State Fault Refusal := s.complete (runHash s.operands s)

end Sys2Proof.Machine
end

