-- ==== Sys2Proof/Machine/StateBuilder.lean ====
section
/-! DEFINITION. The state builder: INIT and LDCTR (spec 40_state_builder). -/

namespace Sys2Proof.Machine

/-- R131, "expand 32-byte k" (the spec marks the string as general knowledge; log 10). -/
def sigma : Vector Word 4 := #v[0x61707865, 0x3320646e, 0x79622d32, 0x6b206574]

/-- R131, "expand 16-byte k" (the spec marks the string as general knowledge; log 10). -/
def tau : Vector Word 4 := #v[0x61707865, 0x3120646e, 0x79622d36, 0x6b206574]

/-- R131: the constant row for a key length in bytes. -/
def constantRow (keyLen : Nat) : Vector Word 4 := if keyLen = 32 then sigma else tau

/-- R132: word `4 + n` of a template, n in 0..7. -/
def keyWord (key : List Byte) (n : Nat) : Word := wordFromBytesLE key (4 * (n % (key.length / 4)))

/-- R132: the template state. Its counter words are 0 (90_conflicts C2). -/
def buildTemplateState (key nonce : List Byte) (d : Dialect) : Block :=
  let row := constantRow key.length
  let k := keyWord key
  match d with
  | .ietf =>
    #v[row[0], row[1], row[2], row[3], k 0, k 1, k 2, k 3, k 4, k 5, k 6, k 7,
       0, wordFromBytesLE nonce 0, wordFromBytesLE nonce 4, wordFromBytesLE nonce 8]
  | .djb =>
    #v[row[0], row[1], row[2], row[3], k 0, k 1, k 2, k 3, k 4, k 5, k 6, k 7,
       0, 0, wordFromBytesLE nonce 0, wordFromBytesLE nonce 4]

/-- R136 without its check: the copy of `s` with the counter words of `c`, the low half in word 12. -/
def counterBlock (s : Block) (c : Nat) (d : Dialect) : Block :=
  match d with
  | .ietf => s.set 12 (BitVec.ofNat 32 c)
  | .djb  => (s.set 12 (BitVec.ofNat 32 c)).set 13 (BitVec.ofNat 32 (c / 2 ^ 32))

/-- R136: setCounter. -/
def setCounter (s : Block) (c : Nat) (d : Dialect) : Except CmdError Block :=
  if 2 ^ d.counterBits ≤ c then .error .counterOverflow else .ok (counterBlock s c d)

/-- R133's pseudocode on captured operands. -/
def runInit (o : Operands) (s : State) : Except CmdError State :=
  if cfgKeyLen o.cfg ≠ 16 ∧ cfgKeyLen o.cfg ≠ 32 then .error .invalidKeyLength
  else if cfgNonceLen o.cfg ≠ (cfgDialect o.cfg).nonceLen then .error .invalidNonceLength
  else .ok { s with
    tmpl := buildTemplateState o.keyBytes o.nonceBytes (cfgDialect o.cfg)
    status := s.status.built (cfgDialect o.cfg) (cfgKeyLen o.cfg == 32) }

/-- INIT (R133). -/
def execInit (s : State) : Host.Outcome State Fault Refusal := s.complete (runInit s.operands s)

/-- R137's pseudocode on captured operands. -/
def runLdctr (o : Operands) (s : State) : Except CmdError State :=
  if o.tvalid = false then .error .templateNotBuilt
  else
    match setCounter o.tmpl o.startCounter o.tdialect with
    | .error e => .error e
    | .ok b    => .ok { s with x := b, orig := b }

/-- LDCTR (R137). -/
def execLdctr (s : State) : Host.Outcome State Fault Refusal := s.complete (runLdctr s.operands s)

end Sys2Proof.Machine
end

