-- ==== Sys2Proof/Machine/Keystream.lean ====
section
/-! DEFINITION. The keystream generator and XOR engine: CRYPT (spec 43_keystream_xor). -/

namespace Sys2Proof.Machine

/-- R11: the least `q` with `q * b >= a`, for the block size b = 64. -/
def blocksNeeded (len : Nat) : Nat := (len + 63) / 64

/-- R180: the 64 bytes for one counter value. -/
def keystreamBlock (t : Block) (c : Nat) (d : Dialect) (r : Nat) : List Byte :=
  serLE (chachaHash (counterBlock t c d) r)

/-- R181: the document's function on a byte string. -/
def encryptOrDecrypt (data : List Byte) (t : Block) (sc r : Nat) (d : Dialect) : Except CmdError (List Byte) :=
  let n := blocksNeeded data.length
  if (List.range n).any (fun b => decide (sc + b > 2 ^ d.counterBits - 1)) then .error .counterOverflow
  else .ok (List.zipWith (· ^^^ ·) data ((List.range n).flatMap fun b => keystreamBlock t (sc + b) d r))

/-- R182's loop: `n` blocks from block `b` on, each leaving its block state in ORIG, its keystream words in X, and its
bytes, up to message length `len`, XORed into MSG. -/
def cryptBlocks (t : Block) (d : Dialect) (r sc len : Nat) : Nat → Nat → BlockWork → BlockWork
  | 0, _, w => w
  | n + 1, b, w =>
    let blk := counterBlock t (sc + b) d
    let x := chachaHash blk r
    let ks := (serLE x).take (min 64 (len - 64 * b))
    cryptBlocks t d r sc len n (b + 1) { orig := blk, x := x, msg := w.msg.xorBytes (64 * b) ks }

/-- R182's pseudocode on captured operands: the checks in R202's order, then the blocks. MSG is
read when the command completes; no write can have changed it since issue (R86, R100; log 11). -/
def runCrypt (o : Operands) (s : State) : Except CmdError State :=
  let r := cfgRounds o.cfg
  let len := o.len.toNat
  let sc := o.startCounter
  let n := blocksNeeded len
  if o.tvalid = false then .error .templateNotBuilt
  else if roundsLegal r = false then .error .invalidRoundsValue
  else if s.params.msgBytes < len then .error .lengthOverrun
  else if 0 < n ∧ 2 ^ o.tdialect.counterBits ≤ sc + n - 1 then .error .counterOverflow
  else
    let w := cryptBlocks o.tmpl o.tdialect r sc len n 0 { orig := s.orig, x := s.x, msg := s.msg }
    .ok { s with orig := w.orig, x := w.x, msg := w.msg }

/-- CRYPT (R182). -/
def execCrypt (s : State) : Host.Outcome State Fault Refusal := s.complete (runCrypt s.operands s)

end Sys2Proof.Machine
end

