-- ==== Sys2Proof/Machine/Dispatch.lean ====
section
/-! DEFINITION. The engine's run of one command: one arm per command of spec 30_encoding R112. -/

namespace Sys2Proof.Machine

def exec (i : Instr) (s : State) : Host.Outcome State Fault Refusal :=
  match i with
  | .init => Sys2Proof.Machine.execInit s
  | .ldctr => Sys2Proof.Machine.execLdctr s
  | .qr qa qb qc qd => Sys2Proof.Machine.execQr qa qb qc qd s
  | .colr => Sys2Proof.Machine.execColr s
  | .diagr => Sys2Proof.Machine.execDiagr s
  | .ffwd => Sys2Proof.Machine.execFfwd s
  | .hash => Sys2Proof.Machine.execHash s
  | .crypt => Sys2Proof.Machine.execCrypt s

end Sys2Proof.Machine
end

