-- ==== Sys2Proof/Machine/Port.lean ====
section
/-! DEFINITION. The host register port: reads and writes (spec 20_memory R80 to R90). -/

namespace Sys2Proof.Machine

/-- R81, R83, R84: what an access of `n` bytes at bus address `addr` is addressed to. The window's end is judged by the
last byte, before alignment: an access with any byte past it is not addressed to CORE. -/
def target (p : Params) (addr : Nat) (n : Width) : Target :=
  if addr < p.base ∨ p.base + 0x1000 + p.msgBytes < addr + n.bytes then .elsewhere
  else
    let off := addr - p.base
    if off < 0x1000 then
      if n = .word ∧ off % 4 = 0 then .register (Reg.ofOffset off) else .refused
    else if (off - 0x1000) % n.bytes = 0 then .message (off - 0x1000) else .refused

/-- The state with the port's answer; the answer is the model's own field (log 2). -/
def State.answer (s : State) (r : Reply) : State := { s with reply := some r }

/-- R85: a read that returns any value: the next draw, of the access's width (log 3). -/
def State.answerAny (s : State) (n : Width) : State :=
  { s with reply := some (.data (n.low (Config.anyRead s.draws))), draws := s.draws + 1 }

/-- R86: a legal write while a command is in flight: OK, dropped, WOVR set. -/
def State.dropWrite (s : State) : State := { s with status := s.status.dropped, reply := some .written }

/-- R84, R87: a legal write to the MSG window while idle. -/
def State.writeMsg (s : State) (a : Nat) (n : Width) (v : Word) : State :=
  { s with msg := s.msg.writeLE a n.bytes v }

/-- BusRead (R80, R85). -/
def State.busRead (s : State) (addr : Nat) (n : Width) : State :=
  match target s.params addr n with
  | .register r =>
    if s.status.busy && r.isStateWord then s.answerAny n else s.answer (.data (s.readReg r))
  | .message a =>
    if s.status.busy then s.answerAny n else s.answer (.data (s.msg.readLE a n.bytes))
  | .refused   => s.answer .error
  | .elsewhere => s.answer .unanswered

/-- BusWrite (R80, R86, R87). -/
def State.busWrite (s : State) (addr : Nat) (n : Width) (v : Word) : State :=
  match target s.params addr n with
  | .register r =>
    if s.status.busy then s.dropWrite else (s.writeReg v r).answer .written
  | .message a =>
    if s.status.busy then s.dropWrite else (s.writeMsg a n v).answer .written
  | .refused   => s.answer .error
  | .elsewhere => s.answer .unanswered

end Sys2Proof.Machine
end

