-- ==== Sys2Proof/Machine/Program.lean ====
section
/-! DEFINITION. Host programs (spec 30_encoding R117, R118): the host as an agent that runs its lines one transaction at
a time. When the host moves, and so how often a `WAIT` polls and where the engine moves between two lines, is the
schedule's (log 1). -/

namespace Sys2Proof.Machine

/-- R118: the transaction a line makes each time the host moves at it. -/
def HostLine.turn (p : Params) : HostLine → Turn
  | .w off v  => .write (p.base + off) .word v
  | .wh off v => .write (p.base + off) .half v
  | .wb off v => .write (p.base + off) .byte v
  | .r off    => .read (p.base + off) .word
  | .cmd i    => .write (p.base + 0x004) .word (encode i)
  | .wait     => .read (p.base + 0x008) .word

/-- The lines left after the host's move at the first of `lines`. R118: a `WAIT` whose read of STATUS finds bit 0
(BUSY) = 1 is repeated; every other line is done after one transaction. -/
def linesLeft (busy : Bool) : List HostLine → List HostLine
  | [] => []
  | l :: rest => if l = .wait ∧ busy then l :: rest else rest

/-- A pseudo-command as host lines: each command issued and waited for (R117). -/
def Pseudo.lines (q : Pseudo) : List HostLine := q.expand.flatMap fun i => [.cmd i, .wait]

/-- The state with a host program put after the lines the host has still to run. -/
def State.withProgram (s : State) (lines : List HostLine) : State := { s with program := s.program ++ lines }

end Sys2Proof.Machine
end

