-- ==== Sys2Proof/Machine/Engine.lean ====
section
/-! DEFINITION. The engine's step (spec 60_exceptions R203), whose turn is next (log 1), and one turn of any agent (spec 00_scope R5, 70 R230). -/

namespace Sys2Proof.Machine

/-- R203: the engine decodes the word in flight and runs its rule; an illegal word completes with IllegalCommand and
changes nothing else (R114). With nothing in flight the engine's step is not enabled and nothing changes. -/
def engineTurn (s : State) : Host.Outcome State Fault Refusal :=
  match s.pend with
  | none => .next s
  | some p =>
    match decode p.word with
    | .command i => exec i s
    | .illegal _ => s.complete (.error .illegalCommand)

/-- One turn of one agent. -/
def takeTurn (t : Turn) (s : State) : Host.Outcome State Fault Refusal :=
  match t with
  | .engine         => engineTurn s
  | .read addr n    => .next (s.busRead addr n)
  | .write addr n v => .next (s.busWrite addr n v)
  | .reset          => .next s.resetAction

/-- The turn a slot gives: its own, or the transaction of the line the host is at. A host with no line left makes none
and the engine moves (log 1). -/
def State.turnOf (s : State) : Slot → Turn
  | .turn t => t
  | .host   =>
    match s.program with
    | []     => .engine
    | l :: _ => l.turn s.params

/-- The turn the next step takes: the first slot's, or the engine's when the schedule is empty (log 1, R204). -/
def State.nextTurn (s : State) : Turn := s.turnOf (s.schedule.headD (.turn .engine))

/-- The host's lines once the next turn is taken: only the host's own slot moves the host on. -/
def State.nextProgram (s : State) : List HostLine :=
  match s.schedule with
  | .host :: _ => linesLeft s.status.busy s.program
  | _          => s.program

/-- The state with its next slot taken off the schedule, and the host moved on if the slot is the host's. -/
def State.afterTurn (s : State) : State := { s with program := s.nextProgram, schedule := s.schedule.tail }

/-- The word `w` issued on `s` (R110), with the engine's turn next (log 8). -/
def State.issueNext (s : State) (w : Word) : State := { s.issue w with schedule := .turn .engine :: s.schedule }

end Sys2Proof.Machine
end

