-- ==== Sys2Proof/Machine/Step.lean ====
section
/-! DEFINITION. One step of CORE, and how an instruction is put where the next step runs it. -/

namespace Sys2Proof.Machine

/-- One step: the next slot is taken off the schedule and its turn is taken (spec 00_scope R5; log 1). -/
def step (s : State) : Host.Outcome State Fault Refusal := takeTurn s.nextTurn s.afterTurn

/-- CORE fetches nothing (R104): a command is written to CMD. This is `s` with the word issued as R110 says and the
engine's turn next, so that the next step decodes and runs it (log 8). -/
def State.withFetchWord (s : State) (_nbits w : Nat) : State := s.issueNext (BitVec.ofNat 32 w)

end Sys2Proof.Machine
end

