-- ==== Sys2Proof/Safety.lean ====
section
/-! DEFINITION. The invariant of CORE and the terms claims are made in. -/

namespace Sys2Proof.Machine

/-- R43, R51, R132, 90_conflicts C2: without a successful INIT the template is as reset left it; with one it is the
template of some key and nonce of the latched key length and dialect. -/
def State.TemplateOk (s : State) : Prop :=
  (s.status.tvalid = false →
    s.tmpl = Vector.replicate 16 0 ∧ s.status.tdialect = .ietf ∧ s.status.tkey32 = false) ∧
  (s.status.tvalid = true → ∃ key nonce : List Byte,
    key.length = (if s.status.tkey32 then 32 else 16) ∧ nonce.length = s.status.tdialect.nonceLen ∧
    s.tmpl = buildTemplateState key nonce s.status.tdialect)

/-- What every state of a run satisfies. -/
structure State.Inv (s : State) : Prop where
  /-- R9: the parameters are legal. -/
  params_wf : s.params.wf
  /-- R32: CFG's reserved bits are 0. -/
  cfg_reserved : s.cfg &&& cfgMask = s.cfg
  /-- R56: PEND is none exactly when BUSY = 0. -/
  busy_pend : s.status.busy = s.pend.isSome
  /-- R40, R42, R45: DONE and ERR are 0 while a command is in flight. -/
  busy_clear : s.status.busy = true → s.status.done = false ∧ s.status.err = none
  /-- R100: the captured operands are the registers' values still. -/
  captured : ∀ p, s.pend = some p → p.operands = s.capture
  /-- The message buffer keeps its canonical form. -/
  msg_wf : s.msg.wf
  /-- R90: every byte of MSG lies in the buffer. -/
  msg_within : s.msg.within s.params.msgBytes
  /-- R51: the template. -/
  template : s.TemplateOk

/-- R83, R84: the legal accesses, an aligned 32-bit access to the register region or a naturally aligned one inside the
MSG window. -/
def LegalAccess (p : Params) (addr : Nat) (n : Width) : Prop :=
  (∃ off, addr = p.base + off ∧ off < 0x1000 ∧ off % 4 = 0 ∧ n = .word) ∨
  (∃ a, addr = p.base + 0x1000 + a ∧ a % n.bytes = 0 ∧ a + n.bytes ≤ p.msgBytes)

/-- R231's table of reset values, the row of MSG aside. -/
structure State.ResetValues (t : State) : Prop where
  cfg : t.cfg = 0x0C201400
  cfg_fields : cfgDialect t.cfg = .ietf ∧ cfgCtrOvr t.cfg = false ∧ cfgIe t.cfg = false ∧ cfgRounds t.cfg = 20 ∧
    cfgKeyLen t.cfg = 32 ∧ cfgNonceLen t.cfg = 12
  status : t.status.word = 0
  len : t.len = 0
  counter : t.ctrLo = 0 ∧ t.ctrHi = 0
  key : ∀ n : Fin 8, t.key[n] = 0
  nonce : ∀ n : Fin 3, t.nonce[n] = 0
  tmpl : ∀ i : Fin 16, t.tmpl[i] = 0
  orig : ∀ i : Fin 16, t.orig[i] = 0
  x : ∀ i : Fin 16, t.x[i] = 0
  pend : t.pend = none
  irq : t.irq = false

/-- A group of four state indices a quarterround works on. -/
abbrev Group := Fin 16 × Fin 16 × Fin 16 × Fin 16

/-- R153's index groups. -/
def columns : List Group := [(0, 4, 8, 12), (1, 5, 9, 13), (2, 6, 10, 14), (3, 7, 11, 15)]

/-- R155's index groups. -/
def diagonals : List Group := [(0, 5, 10, 15), (1, 6, 11, 12), (2, 7, 8, 13), (3, 4, 9, 14)]

/-- The words of `x'` at the four indices of `g` are the quarterround of the words of `x` there. -/
def GroupMixed (x x' : Block) (g : Group) : Prop :=
  (x'[g.1], x'[g.2.1], x'[g.2.2.1], x'[g.2.2.2]) = quarterround x[g.1] x[g.2.1] x[g.2.2.1] x[g.2.2.2]

/-- R135: the start counter of captured operands, from the register bits. -/
def StartCounterIs (o : Operands) (c : Nat) : Prop :=
  (o.cfg.getLsbD 1 = true → c = o.ctrHi.toNat * 2 ^ 32 + o.ctrLo.toNat) ∧
  (o.cfg.getLsbD 1 = false → c = match o.tdialect with | .ietf => 1 | .djb => 0)

/-- R130: the first counter value too wide for a dialect, `2^counterBits(d)`. -/
def counterLimit : Dialect → Nat
  | .ietf => 2 ^ 32
  | .djb  => 2 ^ 64

/-- `MSG[0 .. n-1]` as a byte string. -/
def Memory.prefixBytes (m : Memory) (n : Nat) : List Byte := (List.range n).map m.read

/-- A turn of the host: a transaction on the port. -/
def Turn.isTransaction : Turn → Bool
  | .read _ _ | .write _ _ _ => true
  | .engine | .reset => false

/-- The port's action on a transaction; other turns are no transactions and change nothing here. -/
def State.transact (s : State) : Turn → State
  | .read addr n    => s.busRead addr n
  | .write addr n v => s.busWrite addr n v
  | .engine         => s
  | .reset          => s

/-- Commands run one after another, each to completion. -/
def execAll : List Instr → State → Host.Outcome State Fault Refusal
  | [], s => .next s
  | i :: is, s =>
    match exec i s with
    | .next t    => execAll is t
    | .fault r   => .fault r
    | .refused r => .refused r

end Sys2Proof.Machine
end

