-- ==== Sys2Proof/Certificates/Slice0/Obligations.lean ====
section
/-! DEFINITION. The statements about CORE that the provers settle. Each names the rules of spec/ it rests on. In a
statement about `exec`, `s.operands` are the operands the command in flight captured at issue (R100), and
`{ s.status with busy := false, done := true, err := none }` with `pend := none` are R203's completion fields. -/

open Sys2Proof Sys2Proof.Machine

/-! ### Encoding -/

/-- R112, R114, R116: words written out from the spec decode to the commands they stand for, or are illegal
(95_test_vectors V10, V1.3). -/
def Obligations.SpecWordsDecodeToTheirCommands : Prop :=
  decode 0x00000001 = .command .init ∧ decode 0x00000002 = .command .ldctr ∧
  decode 0x00000004 = .command .colr ∧ decode 0x00000005 = .command .diagr ∧
  decode 0x00000006 = .command .ffwd ∧ decode 0x00000007 = .command .hash ∧
  decode 0x00000008 = .command .crypt ∧
  decode 0x00000003 = .command (.qr 0 0 0 0) ∧ decode 0x00C84003 = .command (.qr 0 4 8 12) ∧
  decode 0x00E94303 = .command (.qr 3 4 9 14) ∧ decode 0x00D87203 = .command (.qr 2 7 8 13) ∧
  decode 0x00000000 = .illegal .unknownOp ∧ decode 0x0000000F = .illegal .unknownOp ∧
  decode 0x00000011 = .illegal .reservedBits ∧ decode 0x01000003 = .illegal .reservedBits ∧
  decode 0x00000104 = .illegal .reservedBits

/-- Decode and encode agree on every command, every operand at every value. -/
def Obligations.DecodeOfEncodeIsTheCommand : Prop :=
  ∀ i : Instr, decode (encode i) = .command i

/-- R115: a word that is a command is that command's one encoding. -/
def Obligations.CommandHasOneWord : Prop :=
  ∀ (w : Word) (i : Instr), decode w = .command i → encode i = w

/-- R114: the illegal words are those of its three cases, and an illegal word completes with IllegalCommand (code 5) and
changes nothing else. -/
def Obligations.IllegalWordsCompleteWithIllegalCommand : Prop :=
  (∀ w : Word, (∃ r, decode w = .illegal r) ↔ IllegalWord w) ∧
  ∀ (s : State) (p : Pending), s.pend = some p → IllegalWord p.word →
    engineTurn s = .next { s with
      status := { s.status with busy := false, done := true, err := some .illegalCommand }, pend := none }

/-- R113: QR's operands are the four fields of the word as they stand. -/
def Obligations.QrOperandsAreTheWordsFields : Prop :=
  ∀ w : Word, w.toNat % 2 ^ 8 = 3 → w.toNat / 2 ^ 24 = 0 →
    ∃ qa qb qc qd : Fin 16, decode w = .command (.qr qa qb qc qd) ∧
      qa.val = w.toNat / 2 ^ 8 % 16 ∧ qb.val = w.toNat / 2 ^ 12 % 16 ∧
      qc.val = w.toNat / 2 ^ 16 % 16 ∧ qd.val = w.toNat / 2 ^ 20 % 16

/-! ### Steps, completion, reset -/

/-- R203: when the engine has the next turn and the word in flight decodes to a command, the step is that command's run.
MODEL'S CHOICES: that the turn is taken off a schedule held in State (log 1), and that `withFetchWord` issues a word with
the engine's turn next, so that the next step is its run (log 8). -/
def Obligations.StepRunsTheDecodedCommand : Prop :=
  (∀ (s : State) (p : Pending) (i : Instr), s.nextTurn = .engine → s.pend = some p → decode p.word = .command i →
    step s = exec i { s with schedule := s.schedule.tail }) ∧
  (∀ (s : State) (w : Word) (i : Instr), decode w = .command i →
    step (s.withFetchWord 32 w.toNat) = exec i (s.issue w))

/-- R110, R203: the host writes a command's word to CMD while CORE is idle and the engine's turn follows: the two steps
run the command on the operands captured by that write. That the two turns stand in a schedule is the MODEL'S CHOICE
(log 1). -/
def Obligations.CommandWriteThenEngineRunsIt : Prop :=
  ∀ (s : State) (i : Instr) (rest : List Slot), s.status.busy = false →
    s.schedule = .turn (.write (s.params.base + 0x004) .word (encode i)) :: .turn .engine :: rest →
    ∃ s₁ : State, step s = .next s₁ ∧ step s₁ = exec i { s with
      pend := some { word := encode i, operands := s.capture }
      status := { s.status with busy := true, done := false, err := none }
      reply := some .written
      schedule := rest }

/-- 93_implementation_defined: "No behaviour of CORE is `stuck`": every state has a next state. MODEL'S CHOICES: the step
takes one slot off the schedule (log 1) and leaves the parameters (log 5). -/
def Obligations.EveryStateHasANextState : Prop :=
  ∀ s : State, ∃ t, step s = .next t ∧ t.schedule = s.schedule.tail ∧ t.params = s.params

/-- R204 gives a finite delay and no bound. MODEL'S CHOICE (log 1): the schedule is a finite list after which the engine
moves, so nothing is in flight after the slots to come and one step more. A reset among the slots abandons the command
instead of completing it (R232). -/
def Obligations.EveryIssuedCommandCompletes : Prop :=
  ∀ s : State, s.Inv →
    ∃ t : State, core.run (s.schedule.length + 1) s = .next t ∧ t.pend = none ∧ t.status.busy = false

/-- R231, R232: what reset leaves, whatever was in flight, and that the model's reset state has the same values. MODEL'S
CHOICE (log 4): MSG's "any value" is the free value of the present draw, and the draw count advances, so that no later
reset or busy read uses that draw. -/
def Obligations.ResetLeavesTheSpecValues : Prop :=
  State.reset.ResetValues ∧
  ∀ s : State, s.nextTurn = .reset →
    ∃ t, step s = .next t ∧ t.ResetValues ∧ (∀ a, t.msg.read a = Config.anyMsgByte s.draws a) ∧
      t.draws = s.draws + 1

/-- The invariant holds after reset. -/
def Obligations.ResetStateSatisfiesTheInvariant : Prop := State.reset.Inv

/-- Every step of host, engine or reset keeps the invariant: CFG's reserved bits, BUSY against PEND (R56), the captured
operands against the registers (R100), MSG's form, and the template (R51, R134, 90_conflicts C2). -/
def Obligations.EveryStepKeepsTheInvariant : Prop :=
  ∀ s t : State, s.Inv → step s = .next t → t.Inv

/-- R201: a command that completes with an error code writes nothing but the completion fields. -/
def Obligations.ErrorWritesOnlyCompletionFields : Prop :=
  ∀ (s t : State) (p : Pending) (e : CmdError), s.pend = some p → engineTurn s = .next t → t.status.err = some e →
    t = { s with status := { s.status with busy := false, done := true, err := some e }, pend := none }

/-- R203: an engine step with a command in flight clears BUSY and PEND and sets DONE, whatever the command; with none
it changes nothing. -/
def Obligations.EngineTurnAlwaysCompletes : Prop :=
  (∀ (s : State) (p : Pending), s.pend = some p → ∃ t, engineTurn s = .next t ∧
    t.status.busy = false ∧ t.status.done = true ∧ t.pend = none ∧ t.status.wovr = s.status.wovr) ∧
  (∀ s : State, s.pend = none → engineTurn s = .next s)

/-- R100: issuing captures the registers; whatever reads and writes the host makes while the command is in flight, the
registers still hold the captured values, and the completion leaves the same state, but for WOVR and the model's own
`reply` and `draws`: the result is a function of the state at issue alone. -/
def Obligations.ResultDependsOnStateAtIssueAlone : Prop :=
  ∀ (s : State) (w : Word) (ts : List Turn), (∀ t ∈ ts, t.isTransaction = true) →
    let late := ts.foldl State.transact (s.issue w)
    late.pend = some { word := w, operands := s.capture } ∧ late.capture = s.capture ∧
    ∃ u v : State, engineTurn (s.issue w) = .next u ∧ engineTurn late = .next v ∧
      v = { u with status := { u.status with wovr := v.status.wovr }, reply := v.reply, draws := v.draws }

/-! ### STATUS and the interrupt -/

/-- R40, R200, R33: the word a host reads from STATUS, bit by bit. -/
def Obligations.StatusWordHasTheSpecLayout : Prop :=
  ∀ f : Status,
    f.word.getLsbD 0 = f.busy ∧ f.word.getLsbD 1 = f.done ∧ f.word.getLsbD 2 = f.tvalid ∧
    f.word.getLsbD 3 = decide (f.tdialect = .djb) ∧ f.word.getLsbD 4 = f.tkey32 ∧ f.word.getLsbD 5 = f.wovr ∧
    (f.word.toNat / 2 ^ 8 % 16 =
      match f.err with
      | none => 0
      | some .invalidKeyLength => 1
      | some .invalidNonceLength => 2
      | some .counterOverflow => 3
      | some .invalidRoundsValue => 4
      | some .illegalCommand => 5
      | some .templateNotBuilt => 6
      | some .lengthOverrun => 7) ∧
    f.word.getLsbD 6 = false ∧ f.word.getLsbD 7 = false ∧ f.word.toNat / 2 ^ 12 = 0

/-- R41: BUSY is set when a command is issued and cleared when it completes or at reset; no other event writes it. -/
def Obligations.BusyChangesOnlyOnIssueCompletionReset : Prop :=
  ∀ s t : State, step s = .next t →
    (t.status.busy ≠ s.status.busy →
      (t.status.busy = true ∧ ∃ w, s.nextTurn = .write (s.params.base + 0x004) .word w) ∨
      (t.status.busy = false ∧ ((s.nextTurn = .engine ∧ s.pend ≠ none) ∨ s.nextTurn = .reset))) ∧
    (s.status.busy = false → (∃ w, s.nextTurn = .write (s.params.base + 0x004) .word w) → t.status.busy = true) ∧
    (s.nextTurn = .engine → s.pend ≠ none → t.status.busy = false) ∧
    (s.nextTurn = .reset → t.status.busy = false)

/-- R210, R211, R212: the output is `IE & DONE` (CFG bit 2, STATUS bit 1); nothing but a completion sets DONE; a host
write of 1 to STATUS bit 1 while idle clears it. -/
def Obligations.InterruptIsDoneAndOnlyCompletionSetsDone : Prop :=
  (∀ s : State, s.irq = (s.cfg.getLsbD 2 && s.status.word.getLsbD 1)) ∧
  (∀ s t : State, step s = .next t → s.status.done = false → t.status.done = true →
    s.nextTurn = .engine ∧ s.pend ≠ none) ∧
  (∀ (s : State) (v : Word), s.status.busy = false → v.getLsbD 1 = true →
    (s.busWrite (s.params.base + 0x008) .word v).irq = false)

/-- R44: WOVR is set by every legal host write that is dropped, cleared by a host write of STATUS with bit 5 = 1 while idle
(and by reset, R231), and written by nothing else, no command among it. -/
def Obligations.WovrRecordsDroppedWrites : Prop :=
  ∀ s t : State, step s = .next t →
    (s.status.busy = true → (∃ addr n v, s.nextTurn = .write addr n v ∧ LegalAccess s.params addr n) →
      t.status.wovr = true) ∧
    (s.status.busy = false →
      (∃ v : Word, s.nextTurn = .write (s.params.base + 0x008) .word v ∧ v.getLsbD 5 = true) →
      t.status.wovr = false) ∧
    (s.status.wovr = false → t.status.wovr = true →
      s.status.busy = true ∧ ∃ addr n v, s.nextTurn = .write addr n v ∧ LegalAccess s.params addr n) ∧
    (s.status.wovr = true → t.status.wovr = false →
      s.nextTurn = .reset ∨
      (s.status.busy = false ∧ ∃ v : Word, s.nextTurn = .write (s.params.base + 0x008) .word v ∧ v.getLsbD 5 = true))

/-- R45: ERR is 0 after an issue, and holds until the next issue or reset; no write but one that issues a command
changes it, and the completion of the command in flight writes it. -/
def Obligations.ErrHoldsUntilTheNextIssueOrReset : Prop :=
  ∀ s t : State, step s = .next t →
    (s.status.busy = false → (∃ w, s.nextTurn = .write (s.params.base + 0x004) .word w) → t.status.err = none) ∧
    (t.status.err ≠ s.status.err →
      s.nextTurn = .reset ∨ (s.nextTurn = .engine ∧ s.pend ≠ none) ∨
      (s.status.busy = false ∧ t.status.err = none ∧ ∃ w, s.nextTurn = .write (s.params.base + 0x004) .word w))

/-- R43, R51, R138: TMPL and STATUS.T* change only by reset and by an INIT that completes without error. -/
def Obligations.OnlyInitAndResetChangeTheTemplate : Prop :=
  ∀ s t : State, step s = .next t →
    (t.tmpl ≠ s.tmpl ∨ t.status.tvalid ≠ s.status.tvalid ∨ t.status.tdialect ≠ s.status.tdialect ∨
      t.status.tkey32 ≠ s.status.tkey32) →
    s.nextTurn = .reset ∨
    (s.nextTurn = .engine ∧ ∃ p, s.pend = some p ∧ p.word = 0x00000001 ∧ t.status.err = none ∧ t.status.tvalid = true)

/-! ### The host port -/

/-- R83: in the register region an access that is not an aligned 32-bit one gets ERR and has no effect. -/
def Obligations.NarrowOrMisalignedRegisterAccessIsRefused : Prop :=
  ∀ (s : State) (off : Nat) (n : Width) (v : Word), s.params.wf → off < 0x1000 → (n ≠ .word ∨ off % 4 ≠ 0) →
    s.busRead (s.params.base + off) n = { s with reply := some .error } ∧
    s.busWrite (s.params.base + off) n v = { s with reply := some .error }

/-- R84: MSG accesses. Naturally aligned ones are legal, and while idle they read and write the bytes at the address,
little-endian, and no other byte; misaligned ones get ERR and have no effect, idle or not. -/
def Obligations.MessageWindowReadsAndWritesItsBytes : Prop :=
  ∀ (s : State) (a : Nat) (n : Width) (v : Word), a + n.bytes ≤ s.params.msgBytes →
    (a % n.bytes = 0 → s.status.busy = false →
      (∃ d : Word, s.busRead (s.params.base + 0x1000 + a) n = { s with reply := some (.data d) } ∧
        (∀ k, k < n.bytes → byteOf d k = s.msg.read (a + k)) ∧ (∀ k, n.bytes ≤ k → byteOf d k = 0)) ∧
      ∃ m : Memory, s.busWrite (s.params.base + 0x1000 + a) n v = { s with msg := m, reply := some .written } ∧
        (∀ k, k < n.bytes → m.read (a + k) = byteOf v k) ∧
        (∀ b, (b < a ∨ a + n.bytes ≤ b) → m.read b = s.msg.read b)) ∧
    (a % n.bytes ≠ 0 →
      s.busRead (s.params.base + 0x1000 + a) n = { s with reply := some .error } ∧
      s.busWrite (s.params.base + 0x1000 + a) n v = { s with reply := some .error })

/-- R86: every legal write while a command is in flight gets OK, sets WOVR and changes nothing else, CMD and STATUS
included. -/
def Obligations.WritesInFlightAreDropped : Prop :=
  ∀ (s : State) (addr : Nat) (n : Width) (v : Word), s.status.busy = true → LegalAccess s.params addr n →
    s.busWrite addr n v = { s with status := { s.status with wovr := true }, reply := some .written }

/-- R85: reads. The registers that are exact at all times, and TMPL, ORIG, X and MSG while idle. MODEL'S CHOICE (log 3):
while a command is in flight the "any value" of those four is the free value of the present draw, and the draw count
advances. No read changes any state of CORE: `reply` and `draws` are the model's own. -/
def Obligations.PortReadsReturnCurrentValues : Prop :=
  (∀ (s : State) (addr : Nat) (n : Width),
    ∃ r d, s.busRead addr n = { s with reply := r, draws := d }) ∧
  (∀ s : State,
    let rd := fun off => (s.busRead (s.params.base + off) .word).reply
    rd 0x000 = some (.data s.cfg) ∧ rd 0x004 = some (.data 0) ∧ rd 0x008 = some (.data s.status.word) ∧
    rd 0x00C = some (.data s.len) ∧ rd 0x010 = some (.data s.ctrLo) ∧ rd 0x014 = some (.data s.ctrHi) ∧
    (∀ n : Fin 8, rd (0x020 + 4 * n) = some (.data s.key[n])) ∧
    (∀ n : Fin 3, rd (0x040 + 4 * n) = some (.data s.nonce[n])) ∧
    (∀ off, off % 4 = 0 →
      ((0x018 ≤ off ∧ off < 0x020) ∨ (0x04C ≤ off ∧ off < 0x100) ∨ (0x1C0 ≤ off ∧ off < 0x1000)) →
      rd off = some (.data 0)) ∧
    (s.status.busy = false → ∀ i : Fin 16, rd (0x100 + 4 * i) = some (.data s.tmpl[i]) ∧
      rd (0x140 + 4 * i) = some (.data s.orig[i]) ∧ rd (0x180 + 4 * i) = some (.data s.x[i])) ∧
    (s.status.busy = true → ∀ off, off % 4 = 0 → 0x100 ≤ off → off < 0x1C0 →
      s.busRead (s.params.base + off) .word =
        { s with reply := some (.data (Config.anyRead s.draws)), draws := s.draws + 1 })) ∧
  (∀ (s : State) (a : Nat) (n : Width), a % n.bytes = 0 → a + n.bytes ≤ s.params.msgBytes →
    (s.status.busy = true →
      s.busRead (s.params.base + 0x1000 + a) n =
        { s with reply := some (.data (n.low (Config.anyRead s.draws))), draws := s.draws + 1 }) ∧
    (s.status.busy = false →
      s.busRead (s.params.base + 0x1000 + a) n = { s with reply := some (.data (s.msg.readLE a n.bytes)) }))

/-- R87, R46, R31: legal writes while idle: each register of the register region, and the MSG window. -/
def Obligations.IdleWritesStoreIssueOrClear : Prop :=
  ∀ (s : State) (v : Word), s.status.busy = false →
    let wr := fun off => s.busWrite (s.params.base + off) .word v
    (∃ c : Word, wr 0x000 = { s with cfg := c, reply := some .written } ∧
      ∀ i, i < 32 → c.getLsbD i =
        (v.getLsbD i && decide (i ≤ 2 ∨ (8 ≤ i ∧ i ≤ 15) ∨ (16 ≤ i ∧ i ≤ 21) ∨ (24 ≤ i ∧ i ≤ 27)))) ∧
    wr 0x004 = { s with
      pend := some { word := v, operands := s.capture }
      status := { s.status with busy := true, done := false, err := none }
      reply := some .written } ∧
    wr 0x008 = { s with
      status := { s.status with
        done := if v.getLsbD 1 then false else s.status.done
        wovr := if v.getLsbD 5 then false else s.status.wovr }
      reply := some .written } ∧
    wr 0x00C = { s with len := v, reply := some .written } ∧
    wr 0x010 = { s with ctrLo := v, reply := some .written } ∧
    wr 0x014 = { s with ctrHi := v, reply := some .written } ∧
    (∀ n : Fin 8, wr (0x020 + 4 * n) = { s with key := s.key.set n v, reply := some .written }) ∧
    (∀ n : Fin 3, wr (0x040 + 4 * n) = { s with nonce := s.nonce.set n v, reply := some .written }) ∧
    (∀ i : Fin 16, wr (0x180 + 4 * i) = { s with x := s.x.set i v, reply := some .written }) ∧
    (∀ off, off % 4 = 0 →
      ((0x018 ≤ off ∧ off < 0x020) ∨ (0x04C ≤ off ∧ off < 0x180) ∨ (0x1C0 ≤ off ∧ off < 0x1000)) →
      wr off = { s with reply := some .written }) ∧
    (∀ (a : Nat) (n : Width), a % n.bytes = 0 → a + n.bytes ≤ s.params.msgBytes →
      s.busWrite (s.params.base + 0x1000 + a) n v =
        { s with msg := s.msg.writeLE a n.bytes v, reply := some .written })

/-- R81: an access with a byte outside the decoded offsets changes nothing. MODEL'S CHOICE (log 6): the spec forbids
assuming a response; the model records that CORE gave none. -/
def Obligations.UnaddressedAccessChangesNothing : Prop :=
  ∀ (s : State) (addr : Nat) (n : Width) (v : Word),
    (addr < s.params.base ∨ s.params.base + 0x1000 + s.params.msgBytes < addr + n.bytes) →
    s.busRead addr n = { s with reply := some .unanswered } ∧
    s.busWrite addr n v = { s with reply := some .unanswered }

/-- R96: after a HASH or a CRYPT the port shows the keystream: byte `4i + j` of `serLE(X)` is byte `j` of the 32-bit
read at 0x180 + 4i. -/
def Obligations.KeystreamIsReadThroughThePort : Prop :=
  ∀ (s : State) (i : Fin 16) (j : Fin 4), s.status.busy = false →
    ∃ v : Word, (s.busRead (s.params.base + 0x180 + 4 * i) .word).reply = some (.data v) ∧
      (serLE s.x)[4 * i.val + j.val]? = some (byteOf v j)

/-! ### The functions of the cipher -/

/-- R92, R93, R94: the document's two steps, a byte swap and a big-endian serialization, compose to the little-endian
bytes of the word. -/
def Obligations.ByteSwapThenBigEndianIsLittleEndian : Prop :=
  (∀ w : Word, bytesFromWordBE (bswap32 w) = [byteOf w 0, byteOf w 1, byteOf w 2, byteOf w 3]) ∧
  (∀ s : Block, serLE s = s.toList.flatMap fun w => bytesFromWordBE (bswap32 w))

/-- R150: rotl32 is the circular left rotation, as a number and bit by bit. -/
def Obligations.Rotl32IsCircularLeftRotation : Prop :=
  ∀ (x : Word) (r : Nat), 1 ≤ r → r ≤ 31 →
    (rotl32 x r).toNat = (x.toNat * 2 ^ r + x.toNat / 2 ^ (32 - r)) % 2 ^ 32 ∧
    ∀ i, i < 32 → (rotl32 x r).getLsbD i = x.getLsbD ((i + (32 - r)) % 32)

/-- R151: the quarterround's four steps, in its order, with its argument binding and shifts. -/
def Obligations.QuarterroundIsTheFourArxSteps : Prop :=
  ∀ a b c d : Word,
    let a₁ := a + b
    let d₁ := (d ^^^ a₁).rotateLeft 16
    let c₁ := c + d₁
    let b₁ := (b ^^^ c₁).rotateLeft 12
    let a₂ := a₁ + b₁
    let d₂ := (d₁ ^^^ a₂).rotateLeft 8
    let c₂ := c₁ + d₂
    let b₂ := (b₁ ^^^ c₂).rotateLeft 7
    quarterround a b c d = (a₂, b₂, c₂, d₂)

/-- R157: the four quarterrounds of a round may be done in any order: each order gives colRound, or diagRound. -/
def Obligations.RoundsDoNotDependOnTheOrderOfTheirQuarterrounds : Prop :=
  ∀ (s : Block) (gs : List Group),
    (gs.Perm columns →
      gs.foldl (fun x g => quarterroundAt x g.1 g.2.1 g.2.2.1 g.2.2.2) s = colRound s) ∧
    (gs.Perm diagonals →
      gs.foldl (fun x g => quarterroundAt x g.1 g.2.1 g.2.2.1 g.2.2.2) s = diagRound s)

/-- R131, D20: the constants are the little-endian words of the two ASCII strings, SIGMA the row of a 32-byte key and TAU
that of a 16-byte key. The strings are the spec's from general knowledge (93 I1, I2; log 10). -/
def Obligations.ConstantsAreTheAsciiStrings : Prop :=
  (∀ i : Fin 4, sigma[i] =
    wordFromBytesLE ("expand 32-byte k".toList.map fun ch => BitVec.ofNat 8 ch.toNat) (4 * i)) ∧
  (∀ i : Fin 4, tau[i] =
    wordFromBytesLE ("expand 16-byte k".toList.map fun ch => BitVec.ofNat 8 ch.toNat) (4 * i)) ∧
  constantRow 32 = sigma ∧ constantRow 16 = tau

/-- R172's corner, 90_conflicts C6: the all-zero state hashes to itself, for every round count. -/
def Obligations.ZeroStateHashesToZero : Prop :=
  ∀ r : Nat, chachaHash (Vector.replicate 16 0) r = Vector.replicate 16 0

/-- R134, 90_conflicts C2: in every state that meets the invariant, a built template has zero counter words, and its
key is duplicated when the key is 16 bytes. -/
def Obligations.BuiltTemplateHasZeroCounterAndDuplicatedKey : Prop :=
  ∀ s : State, s.Inv → s.status.tvalid = true →
    s.tmpl[12] = 0 ∧ (s.status.tdialect = .djb → s.tmpl[13] = 0) ∧
    (s.status.tkey32 = false →
      s.tmpl[8] = s.tmpl[4] ∧ s.tmpl[9] = s.tmpl[5] ∧ s.tmpl[10] = s.tmpl[6] ∧ s.tmpl[11] = s.tmpl[7])

/-- R185: blocks are independent: a message whose first part is a multiple of 64 bytes may be processed in two calls, the
second starting at the counter where the first stopped. -/
def Obligations.EncryptionMayBeChunked : Prop :=
  ∀ (m₁ m₂ c₁ c₂ : List Byte) (t : Block) (sc r : Nat) (d : Dialect), m₁.length % 64 = 0 →
    encryptOrDecrypt m₁ t sc r d = .ok c₁ →
    encryptOrDecrypt m₂ t (sc + m₁.length / 64) r d = .ok c₂ →
    encryptOrDecrypt (m₁ ++ m₂) t sc r d = .ok (c₁ ++ c₂)

/-! ### Commands -/

/-- R133, R132, R49, R50: INIT. On legal lengths TMPL is laid out from KEY and NONCE with zero counter words and the
constant row of the key length (whose values are log 10's), and STATUS.T* is latched; else the error, key length first,
and nothing else. -/
def Obligations.InitBuildsTheTemplate : Prop :=
  decode 0x00000001 = .command .init ∧
  ∀ s : State,
    let o := s.operands
    let kl := o.cfg.toNat / 2 ^ 16 % 2 ^ 6
    let nl := o.cfg.toNat / 2 ^ 24 % 2 ^ 4
    let d : Dialect := if o.cfg.getLsbD 0 then .djb else .ietf
    let need := if o.cfg.getLsbD 0 then 8 else 12
    ((kl = 16 ∨ kl = 32) → nl = need →
      ∃ t, exec .init s = .next t ∧
        (∀ i : Fin 4, t.tmpl[i.val] = (constantRow kl)[i]) ∧
        (∀ n : Fin 8, t.tmpl[4 + n.val] = if kl = 32 then o.key[n] else o.key[n.val % 4]) ∧
        t.tmpl[12] = 0 ∧
        (d = .ietf → t.tmpl[13] = o.nonce[0] ∧ t.tmpl[14] = o.nonce[1] ∧ t.tmpl[15] = o.nonce[2]) ∧
        (d = .djb → t.tmpl[13] = 0 ∧ t.tmpl[14] = o.nonce[0] ∧ t.tmpl[15] = o.nonce[1]) ∧
        t = { s with
          tmpl := t.tmpl
          status := { s.status with busy := false, done := true, err := none, tvalid := true, tdialect := d
                                    tkey32 := decide (kl = 32) }
          pend := none }) ∧
    (kl ≠ 16 → kl ≠ 32 →
      exec .init s = .next { s with
        status := { s.status with busy := false, done := true, err := some .invalidKeyLength }, pend := none }) ∧
    ((kl = 16 ∨ kl = 32) → nl ≠ need →
      exec .init s = .next { s with
        status := { s.status with busy := false, done := true, err := some .invalidNonceLength }, pend := none })

/-- R49, R50, 93_implementation_defined I25: registers a configuration does not use never reach the template: two
successful INITs with the same CFG, the same KEY0..KEY3 (all eight for a 32-byte key) and the same NONCE0, NONCE1 (and
NONCE2 for IETF) build the same template. -/
def Obligations.UnusedKeyAndNonceRegistersDoNotReachTheTemplate : Prop :=
  ∀ s s' t t' : State,
    let o := s.operands
    let o' := s'.operands
    exec .init s = .next t → exec .init s' = .next t' → t.status.err = none →
    o.cfg = o'.cfg →
    (∀ n : Fin 8, (n.val < 4 ∨ o.cfg.toNat / 2 ^ 16 % 2 ^ 6 = 32) → o.key[n] = o'.key[n]) →
    (∀ n : Fin 3, (n.val < 2 ∨ o.cfg.getLsbD 0 = false) → o.nonce[n] = o'.nonce[n]) →
    t.tmpl = t'.tmpl

/-- R137, R135, R136: LDCTR. With a template and a counter of the dialect's width, X and ORIG are the template with the
counter words set, the low half in word 12; else the error, and nothing else. -/
def Obligations.LdctrLoadsTheBlockState : Prop :=
  decode 0x00000002 = .command .ldctr ∧
  ∀ (s : State) (c : Nat),
    let o := s.operands
    StartCounterIs o c →
    (o.tvalid = true → c < counterLimit o.tdialect →
      ∃ t, exec .ldctr s = .next t ∧ t.orig = t.x ∧
        t.x[12].toNat = c % 2 ^ 32 ∧
        (o.tdialect = .djb → t.x[13].toNat = c / 2 ^ 32) ∧
        (o.tdialect = .ietf → t.x[13] = o.tmpl[13]) ∧
        (∀ i : Fin 16, i ≠ 12 → i ≠ 13 → t.x[i] = o.tmpl[i]) ∧
        t = { s with
          x := t.x, orig := t.orig, status := { s.status with busy := false, done := true, err := none }, pend := none }) ∧
    (o.tvalid = false →
      exec .ldctr s = .next { s with
        status := { s.status with busy := false, done := true, err := some .templateNotBuilt }, pend := none }) ∧
    (o.tvalid = true → counterLimit o.tdialect ≤ c →
      exec .ldctr s = .next { s with
        status := { s.status with busy := false, done := true, err := some .counterOverflow }, pend := none })

/-- R152: QR. The four words are read first and written in the order QA, QB, QC, QD; equal indices included. Nothing
else changes. -/
def Obligations.QrMixesTheFourChosenWords : Prop :=
  (∀ w : Word, w &&& 0xFF0000FF = 0x00000003 →
    decode w = .command (.qr (w.extractLsb' 8 4).toFin (w.extractLsb' 12 4).toFin (w.extractLsb' 16 4).toFin
      (w.extractLsb' 20 4).toFin)) ∧
  ∀ (s : State) (qa qb qc qd : Fin 16),
    let o := s.operands
    let q := quarterround o.x[qa] o.x[qb] o.x[qc] o.x[qd]
    ∃ t, exec (.qr qa qb qc qd) s = .next t ∧
      (∀ i : Fin 16, t.x[i] =
        if i = qd then q.2.2.2 else if i = qc then q.2.2.1 else if i = qb then q.2.1 else if i = qa then q.1
        else o.x[i]) ∧
      t = { s with x := t.x, status := { s.status with busy := false, done := true, err := none }, pend := none }

/-- R154, R153: COLR. Every column of X is the quarterround of that column; nothing else changes. -/
def Obligations.ColrMixesEveryColumn : Prop :=
  decode 0x00000004 = .command .colr ∧
  ∀ s : State, ∃ t, exec .colr s = .next t ∧
    (∀ g ∈ columns, GroupMixed s.operands.x t.x g) ∧
    t = { s with x := t.x, status := { s.status with busy := false, done := true, err := none }, pend := none }

/-- R156, R155: DIAGR. Every diagonal of X is the quarterround of that diagonal; nothing else changes. -/
def Obligations.DiagrMixesEveryDiagonal : Prop :=
  decode 0x00000005 = .command .diagr ∧
  ∀ s : State, ∃ t, exec .diagr s = .next t ∧
    (∀ g ∈ diagonals, GroupMixed s.operands.x t.x g) ∧
    t = { s with x := t.x, status := { s.status with busy := false, done := true, err := none }, pend := none }

/-- R171: FFWD. Each word of X becomes the sum with ORIG's word modulo 2^32; ORIG and everything else is unchanged. -/
def Obligations.FfwdAddsTheOriginalState : Prop :=
  decode 0x00000006 = .command .ffwd ∧
  ∀ s : State, ∃ t, exec .ffwd s = .next t ∧
    (∀ i : Fin 16, t.x[i].toNat = (s.operands.x[i].toNat + s.operands.orig[i].toNat) % 2 ^ 32) ∧
    t = { s with x := t.x, status := { s.status with busy := false, done := true, err := none }, pend := none }

/-- R172, R170: HASH. On a round count that is not 0 and even, ORIG is the input and X its hash, `r/2` double rounds
and the feed-forward; on any other the error, and nothing else. -/
def Obligations.HashIsDoubleRoundsAndFeedForward : Prop :=
  decode 0x00000007 = .command .hash ∧
  ∀ s : State,
    let o := s.operands
    let r := o.cfg.toNat / 2 ^ 8 % 2 ^ 8
    (r ≠ 0 → r % 2 = 0 →
      ∃ t, exec .hash s = .next t ∧ t.orig = o.x ∧
        (∀ i : Fin 16, t.x[i] = ((fun x => diagRound (colRound x))^[r / 2] o.x)[i] + o.x[i]) ∧
        t = { s with
          x := t.x, orig := t.orig, status := { s.status with busy := false, done := true, err := none }, pend := none }) ∧
    ((r = 0 ∨ r % 2 = 1) →
      exec .hash s = .next { s with
        status := { s.status with busy := false, done := true, err := some .invalidRoundsValue }, pend := none })

/-- R182, R180, R202: CRYPT. When its four checks pass, byte `i` of the message is XORed with byte `i mod 64` of the
keystream block of counter `sc + i/64`, no other byte of MSG changes, and X and ORIG are the last block's, if there is
one. -/
def Obligations.CryptXorsTheKeystreamIntoTheMessage : Prop :=
  decode 0x00000008 = .command .crypt ∧
  ∀ (s : State) (sc : Nat),
    let o := s.operands
    let r := o.cfg.toNat / 2 ^ 8 % 2 ^ 8
    let len := o.len.toNat
    let last := sc + (len - 1) / 64
    let blk := fun c => counterBlock o.tmpl c o.tdialect
    StartCounterIs o sc → o.tvalid = true → r ≠ 0 → r % 2 = 0 → len ≤ s.params.msgBytes →
    (0 < len → last < counterLimit o.tdialect) →
    ∃ t, exec .crypt s = .next t ∧
      (∀ i, i < len → ∃ k, (serLE (chachaHash (blk (sc + i / 64)) r))[i % 64]? = some k ∧
        t.msg.read i = s.msg.read i ^^^ k) ∧
      (∀ i, len ≤ i → t.msg.read i = s.msg.read i) ∧
      (0 < len → t.orig = blk last ∧ t.x = chachaHash (blk last) r) ∧
      (len = 0 → t.orig = s.orig ∧ t.x = s.x ∧ t.msg = s.msg) ∧
      t = { s with
        x := t.x, orig := t.orig, msg := t.msg
        status := { s.status with busy := false, done := true, err := none }, pend := none }

/-- R182, R202, R184: CRYPT's errors, in order: TemplateNotBuilt, InvalidRoundsValue, LengthOverrun, CounterOverflow (only
where a block is needed). Each leaves everything but the completion fields. -/
def Obligations.CryptChecksInOrder : Prop :=
  ∀ (s : State) (sc : Nat),
    let o := s.operands
    let r := o.cfg.toNat / 2 ^ 8 % 2 ^ 8
    let len := o.len.toNat
    let fails := fun e => exec .crypt s = .next { s with
      status := { s.status with busy := false, done := true, err := some e }, pend := none }
    StartCounterIs o sc →
    (o.tvalid = false → fails .templateNotBuilt) ∧
    (o.tvalid = true → (r = 0 ∨ r % 2 = 1) → fails .invalidRoundsValue) ∧
    (o.tvalid = true → r ≠ 0 → r % 2 = 0 → s.params.msgBytes < len → fails .lengthOverrun) ∧
    (o.tvalid = true → r ≠ 0 → r % 2 = 0 → len ≤ s.params.msgBytes → 0 < len →
      counterLimit o.tdialect ≤ sc + (len - 1) / 64 → fails .counterOverflow)

/-- R182's last sentence with R181: CRYPT in place is the document's encryptOrDecrypt of the message, errors included. -/
def Obligations.CryptIsEncryptOrDecryptOfTheMessage : Prop :=
  ∀ s : State,
    let o := s.operands
    let r := cfgRounds o.cfg
    let len := o.len.toNat
    o.tvalid = true → roundsLegal r = true → len ≤ s.params.msgBytes →
    ∃ t, exec .crypt s = .next t ∧
      match encryptOrDecrypt (s.msg.prefixBytes len) o.tmpl o.startCounter r o.tdialect with
      | .ok out  => t.status.err = none ∧ t.msg.prefixBytes len = out
      | .error e => t.status.err = some e ∧ t.msg = s.msg

/-- R183: CRYPT is its own inverse: run twice with nothing between, the second on the registers the first leaves, every
byte of MSG reads as before. -/
def Obligations.CryptTwiceRestoresTheMessage : Prop :=
  ∀ s t u : State, s.operands = s.capture → exec .crypt s = .next t → exec .crypt t = .next u →
    ∀ a, u.msg.read a = s.msg.read a

/-- R173: LDCTR, then DROUND `r/2` times, then FFWD leaves the very state that LDCTR, HASH leaves, where LDCTR succeeds
and CFG.ROUNDS is legal. -/
def Obligations.SingleStepsEqualHash : Prop :=
  ∀ s : State, s.operands.tvalid = true →
    s.operands.startCounter < 2 ^ s.operands.tdialect.counterBits → roundsLegal (cfgRounds s.cfg) = true →
    ∃ t, execAll [.ldctr, .hash] s = .next t ∧
      execAll ([.ldctr] ++ (List.replicate (cfgRounds s.cfg / 2) Pseudo.dround.expand).flatten ++ [.ffwd]) s = .next t

/-- R117: the pseudo-commands QRCOL and QRDIAG expand to the groups of the rounds, and BLOCK and DROUND to their pairs. -/
def Obligations.PseudoCommandsExpandToTheRounds : Prop :=
  ((List.finRange 4).flatMap fun k => (Pseudo.qrcol k).expand) =
    columns.map (fun g => .qr g.1 g.2.1 g.2.2.1 g.2.2.2) ∧
  ((List.finRange 4).flatMap fun k => (Pseudo.qrdiag k).expand) =
    diagonals.map (fun g => .qr g.1 g.2.1 g.2.2.1 g.2.2.2) ∧
  Pseudo.dround.expand = [.colr, .diagr] ∧ Pseudo.block.expand = [.ldctr, .hash]

/-- R55's table, R48 to R53: what each command leaves unchanged, on success and on error. No command writes CFG, LEN, the
counter, KEY or NONCE, nor the parameters; only INIT may write TMPL and STATUS.T*; only LDCTR, HASH and CRYPT may write
ORIG; INIT does not write X; only CRYPT may write MSG, and only bytes below LEN. -/
def Obligations.CommandsWriteOnlyTheirState : Prop :=
  ∀ (i : Instr) (s t : State), exec i s = .next t →
    (t.params = s.params ∧ t.cfg = s.cfg ∧ t.len = s.len ∧ t.ctrLo = s.ctrLo ∧ t.ctrHi = s.ctrHi ∧ t.key = s.key ∧
      t.nonce = s.nonce ∧ t.status.wovr = s.status.wovr) ∧
    (i ≠ .init → t.tmpl = s.tmpl ∧ t.status.tvalid = s.status.tvalid ∧ t.status.tdialect = s.status.tdialect ∧
      t.status.tkey32 = s.status.tkey32) ∧
    (i ≠ .ldctr → i ≠ .hash → i ≠ .crypt → t.orig = s.orig) ∧
    (i = .init → t.x = s.x) ∧
    (i ≠ .crypt → ∀ a, t.msg.read a = s.msg.read a) ∧
    (i = .crypt → ∀ a, s.operands.len.toNat ≤ a → t.msg.read a = s.msg.read a)

/-! ### Host programs -/

/-- R118, R117: at a slot of the host the first line of its program makes its transaction, and the line is done, but for a
`WAIT` that reads BUSY = 1, which stays. MODEL'S CHOICE (log 1): when the host moves is the schedule's. -/
def Obligations.HostLinesRunAsTheirTransactions : Prop :=
  ∀ (s : State) (l : HostLine) (lines : List HostLine) (rest : List Slot),
    s.program = l :: lines → s.schedule = .host :: rest →
    let past := { s with program := lines, schedule := rest }
    (∀ off v, l = .w off v → step s = .next (past.busWrite (s.params.base + off) .word v)) ∧
    (∀ off v, l = .wh off v → step s = .next (past.busWrite (s.params.base + off) .half v)) ∧
    (∀ off v, l = .wb off v → step s = .next (past.busWrite (s.params.base + off) .byte v)) ∧
    (∀ off, l = .r off → step s = .next (past.busRead (s.params.base + off) .word)) ∧
    (∀ i, l = .cmd i → step s = .next (past.busWrite (s.params.base + 0x004) .word (encode i))) ∧
    (l = .wait → s.status.busy = true →
      step s = .next { s with reply := some (.data s.status.word), schedule := rest }) ∧
    (l = .wait → s.status.busy = false →
      step s = .next { past with reply := some (.data s.status.word) })

/-- R118, R204: a `WAIT` polls any number of times while the command is in flight and ends with the first poll after the
completion, which shows the STATUS the command left. MODEL'S CHOICE (log 1): the polls are the schedule's. -/
def Obligations.WaitPollsUntilTheCommandCompletes : Prop :=
  ∀ (s : State) (n : Nat) (lines : List HostLine) (rest : List Slot),
    s.status.busy = true → s.pend ≠ none → s.program = .wait :: lines →
    s.schedule = List.replicate n .host ++ .turn .engine :: .host :: rest →
    ∃ t, core.run (n + 2) s = .next t ∧ t.program = lines ∧ t.schedule = rest ∧ t.pend = none ∧
      t.status.busy = false ∧ t.status.done = true ∧ t.reply = some (.data t.status.word)

/-- 95_test_vectors P6, 93 I21, R101, R86, R87: a write of X that follows a command's issue with no `WAIT` comes before the
completion and is dropped, or after it and is stored; both orders are runs of the same program. MODEL'S CHOICE (log 1):
which order it is, is the schedule's. -/
def Obligations.WriteAndCompletionComeInEitherOrder : Prop :=
  ∀ (s : State) (i : Instr) (k : Fin 16) (v : Word) (lines : List HostLine),
    s.status.busy = false → s.program = .cmd i :: .w (0x180 + 4 * k) v :: .wait :: lines →
    ∃ u, exec i (s.issue (encode i)) = .next u ∧
      (s.schedule = [.host, .host, .turn .engine, .host] →
        ∃ t, core.run 4 s = .next t ∧ t = { u with
          status := { u.status with wovr := true }
          reply := some (.data t.status.word), program := lines, schedule := [] }) ∧
      (s.schedule = [.host, .turn .engine, .host, .host] →
        ∃ t, core.run 4 s = .next t ∧ t = { u with
          x := u.x.set k v
          reply := some (.data t.status.word), program := lines, schedule := [] })
end

