-- ==== Sys2Proof/Laws/Codec.lean ====
section
/-! SUPPORT. The byte/word codec: bytes of a word, words of a file of bytes. -/

namespace Sys2Proof.Machine

@[simp] theorem length_wordBytesLE (w : Word) : (wordBytesLE w).length = 4 := rfl

theorem length_flatMap_wordBytesLE (ws : List Word) : (ws.flatMap wordBytesLE).length = 4 * ws.length := by
  induction ws with
  | nil => rfl
  | cons w ws ih => simp [ih]; omega

@[simp] theorem length_fileBytes {n : Nat} (ws : Vector Word n) : (fileBytes ws).length = 4 * n := by
  rw [fileBytes, length_flatMap_wordBytesLE, Vector.length_toList]

@[simp] theorem length_serLE (s : Block) : (serLE s).length = 64 := length_fileBytes s

theorem getElem?_flatMap_wordBytesLE (ws : List Word) (k : Nat) :
    (ws.flatMap wordBytesLE)[k]? = (ws[k / 4]?).map (fun w => byteOf w (k % 4)) := by
  induction ws generalizing k with
  | nil => simp
  | cons w ws ih =>
    simp only [List.flatMap_cons]
    by_cases hk : k < 4
    · rw [List.getElem?_append_left (by simpa using hk)]
      interval_cases k <;> rfl
    · rw [List.getElem?_append_right (by simpa using hk), length_wordBytesLE, ih]
      have h1 : k / 4 = (k - 4) / 4 + 1 := by omega
      have h2 : (k - 4) % 4 = k % 4 := by omega
      rw [h1, h2, List.getElem?_cons_succ]

/-- R49, R50, R94: byte `k` of a file of words is byte `k mod 4` of word `k div 4`. -/
theorem getElem?_fileBytes {n : Nat} (ws : Vector Word n) (k : Nat) (h : k < 4 * n) :
    (fileBytes ws)[k]? = some (byteOf (ws[k / 4]'(by omega)) (k % 4)) := by
  have h4 : k / 4 < n := by omega
  simp [fileBytes, getElem?_flatMap_wordBytesLE, h4]

/-- R92: the word read from a word's own bytes is the word. -/
theorem wordFromBytesLE_of_bytes (bs : List Byte) (o : Nat) (w : Word)
    (h : ∀ j, j < 4 → bs[o + j]? = some (byteOf w j)) : wordFromBytesLE bs o = w := by
  have h0 := h 0 (by omega); have h1 := h 1 (by omega); have h2 := h 2 (by omega); have h3 := h 3 (by omega)
  simp only [Nat.add_zero] at h0
  simp only [wordFromBytesLE, List.getD_eq_getElem?_getD, h0, h1, h2, h3, Option.getD_some, byteOf]
  ext i hi
  simp only [BitVec.getElem_or, BitVec.getElem_setWidth, BitVec.getLsbD_extractLsb', BitVec.getElem_shiftLeft]
  rcases Nat.lt_or_ge i 8 with h | h
  · simp [h, show i < 16 by omega, show i < 24 by omega, BitVec.getElem_eq_testBit_toNat, BitVec.getLsbD]
  · rcases Nat.lt_or_ge i 16 with h' | h'
    · simp [h', show ¬ i < 8 by omega, show i < 24 by omega, show i - 8 < 8 by omega,
        show 8 + (i - 8) = i by omega, BitVec.getElem_eq_testBit_toNat, BitVec.getLsbD]
    · rcases Nat.lt_or_ge i 24 with h'' | h''
      · simp [h'', show ¬ i < 8 by omega, show ¬ i < 16 by omega, show ¬ i - 8 < 8 by omega,
          show i - 16 < 8 by omega, show 16 + (i - 16) = i by omega, BitVec.getElem_eq_testBit_toNat, BitVec.getLsbD]
      · simp [show ¬ i < 8 by omega, show ¬ i < 16 by omega, show ¬ i < 24 by omega, show ¬ i - 8 < 8 by omega,
          show ¬ i - 16 < 8 by omega, show i - 24 < 8 by omega, show 24 + (i - 24) = i by omega,
          BitVec.getElem_eq_testBit_toNat, BitVec.getLsbD]

/-- R49, R50, R92: a register's word is read back from the file's bytes. -/
theorem wordFromBytesLE_take_fileBytes {n : Nat} (ws : Vector Word n) (len k : Nat) (hk : k < n)
    (hlen : 4 * k + 4 ≤ len) : wordFromBytesLE ((fileBytes ws).take len) (4 * k) = ws[k] := by
  apply wordFromBytesLE_of_bytes
  intro j hj
  rw [List.getElem?_take_of_lt (by omega), getElem?_fileBytes ws _ (by omega)]
  have h1 : (4 * k + j) / 4 = k := by omega
  have h2 : (4 * k + j) % 4 = j := by omega
  simp [h1, h2]

end Sys2Proof.Machine
end

