-- ==== Sys2Proof/Laws/Memory.lean ====
section
/-! SUPPORT. The message buffer: read after write, and that every operation keeps the canonical form and stays inside
the buffer. -/

namespace Sys2Proof.Machine

theorem cellAt_putCell (a b : Nat) (v : Byte) (cs : List Host.Cell) :
    cellAt b (putCell a v cs) = if b = a then some v else cellAt b cs := by
  induction cs with
  | nil => simp [putCell, cellAt]
  | cons c rest ih =>
    obtain ⟨k, w⟩ := c
    unfold putCell
    split
    · by_cases hb : b = a <;> simp [cellAt, hb]
    · split
      · next hak => subst hak; by_cases hb : b = a <;> simp [cellAt, hb]
      · next hlt hne =>
        simp only [cellAt, ih]
        by_cases hbk : b = k
        · subst hbk; simp [Ne.symm hne]
        · simp [hbk]

theorem mem_putCell (a : Nat) (v : Byte) (cs : List Host.Cell) (c : Host.Cell) (h : c ∈ putCell a v cs) :
    c = (a, v) ∨ c ∈ cs := by
  induction cs with
  | nil => simpa [putCell] using h
  | cons d rest ih =>
    obtain ⟨k, w⟩ := d
    unfold putCell at h
    split at h
    · simpa using h
    · split at h
      · simp only [List.mem_cons] at h ⊢; tauto
      · simp only [List.mem_cons] at h ⊢
        rcases h with h | h
        · tauto
        · rcases ih h with h | h <;> tauto

theorem putCell_pairwise (a : Nat) (v : Byte) (cs : List Host.Cell) (h : cs.Pairwise (fun c d => c.1 < d.1)) :
    (putCell a v cs).Pairwise (fun c d => c.1 < d.1) := by
  induction cs with
  | nil => simp [putCell]
  | cons d rest ih =>
    obtain ⟨k, w⟩ := d
    simp only [List.pairwise_cons] at h
    unfold putCell
    split
    · next hlt =>
      simp only [List.pairwise_cons, List.mem_cons]
      refine ⟨?_, h.1, h.2⟩
      rintro c (rfl | hc)
      · exact hlt
      · exact lt_trans hlt (h.1 c hc)
    · split
      · next hlt heq => subst heq; exact List.pairwise_cons.2 h
      · next hlt hne =>
        refine List.pairwise_cons.2 ⟨?_, ih h.2⟩
        intro c hc
        rcases mem_putCell a v rest c hc with rfl | hc
        · exact lt_of_le_of_ne (Nat.le_of_not_lt hlt) (Ne.symm hne)
        · exact h.1 c hc

/-- Read after write. -/
theorem Memory.read_write (m : Memory) (a b : Nat) (v : Byte) :
    (m.write a v).read b = if b = a then v else m.read b := by
  simp only [Memory.read, Memory.write, cellAt_putCell a b v m.cells]
  split <;> rfl

theorem Memory.write_wf (m : Memory) (a : Nat) (v : Byte) (h : m.wf) : (m.write a v).wf :=
  putCell_pairwise a v m.cells h

theorem Memory.write_within (m : Memory) (a : Nat) (v : Byte) (n : Nat) (h : m.within n) (ha : a < n) :
    (m.write a v).within n := by
  intro c hc
  rcases mem_putCell a v m.cells c hc with rfl | hc
  · exact ha
  · exact h c hc

theorem Memory.writeLE_wf (m : Memory) (a n : Nat) (v : Word) (h : m.wf) : (m.writeLE a n v).wf := by
  induction n generalizing m a v with
  | zero => exact h
  | succ n ih => exact ih _ _ _ (m.write_wf a _ h)

theorem Memory.writeLE_within (m : Memory) (a n : Nat) (v : Word) (size : Nat) (h : m.within size)
    (ha : a + n ≤ size) : (m.writeLE a n v).within size := by
  induction n generalizing m a v with
  | zero => exact h
  | succ n ih => exact ih _ _ _ (m.write_within a _ size h (by omega)) (by omega)

theorem Memory.xorBytes_wf (m : Memory) (a : Nat) (ks : List Byte) (h : m.wf) : (m.xorBytes a ks).wf := by
  induction ks generalizing m a with
  | nil => exact h
  | cons k ks ih => exact ih _ _ (m.write_wf a _ h)

theorem Memory.xorBytes_within (m : Memory) (a : Nat) (ks : List Byte) (size : Nat) (h : m.within size)
    (ha : a + ks.length ≤ size) : (m.xorBytes a ks).within size := by
  induction ks generalizing m a with
  | nil => exact h
  | cons k ks ih =>
    simp only [List.length_cons] at ha
    exact ih _ _ (m.write_within a _ size h (by omega)) (by omega)

/-- What XORing bytes into the buffer does to one byte. -/
theorem Memory.read_xorBytes (m : Memory) (a b : Nat) (ks : List Byte) :
    (m.xorBytes a ks).read b =
      if hb : a ≤ b ∧ b - a < ks.length then m.read b ^^^ ks[b - a] else m.read b := by
  induction ks generalizing m a with
  | nil => simp [Memory.xorBytes]
  | cons k ks ih =>
    simp only [Memory.xorBytes, ih _ (a + 1), m.read_write a b, List.length_cons]
    by_cases hba : b = a
    · subst hba
      simp
    · by_cases hin : a + 1 ≤ b ∧ b - (a + 1) < ks.length
      · have h2 : a ≤ b ∧ b - a < ks.length + 1 := by omega
        have h3 : b - a = (b - (a + 1)) + 1 := by omega
        simp [hin, hba, h2, h3]
      · have h2 : ¬ (a ≤ b ∧ b - a < ks.length + 1) := by omega
        rw [dif_neg hin, dif_neg h2, if_neg hba]

/-- What a little-endian write does to one byte. -/
theorem Memory.read_writeLE (m : Memory) (a b n : Nat) (v : Word) :
    (m.writeLE a n v).read b = if a ≤ b ∧ b < a + n then byteOf v (b - a) else m.read b := by
  induction n generalizing m a v with
  | zero => simp [Memory.writeLE]
  | succ n ih =>
    simp only [Memory.writeLE, ih _ (a + 1), m.read_write a b]
    by_cases hba : b = a
    · subst hba
      simp
    · by_cases hin : a + 1 ≤ b ∧ b < a + 1 + n
      · have h2 : a ≤ b ∧ b < a + (n + 1) := by omega
        have h3 : b - a = (b - (a + 1)) + 1 := by omega
        simp only [hin, h2, if_true, and_self]
        rw [h3]
        ext i hi
        simp only [byteOf, BitVec.getElem_extractLsb', BitVec.getLsbD_ushiftRight]
        congr 1; omega
      · have h2 : ¬ (a ≤ b ∧ b < a + (n + 1)) := by omega
        rw [if_neg hin, if_neg h2, if_neg hba]

@[simp] theorem Memory.write_epoch (m : Memory) (a : Nat) (v : Byte) : (m.write a v).epoch = m.epoch := rfl

@[simp] theorem Memory.xorBytes_nil (m : Memory) (a : Nat) : m.xorBytes a [] = m := rfl

end Sys2Proof.Machine
end

