-- ==== Sys2Proof/Laws/Mixing.lean ====
section
/-! SUPPORT. The quarterround on a state vector, word by word; rotation; and the double rounds as an iterate. -/

namespace Sys2Proof.Machine

/-- R152: which word of the state holds what after a quarterround; a later write to an index wins. -/
theorem getElem_quarterroundAt (s : Block) (a b c d i : Fin 16) :
    (quarterroundAt s a b c d)[i] =
      if i = d then (quarterround s[a] s[b] s[c] s[d]).2.2.2
      else if i = c then (quarterround s[a] s[b] s[c] s[d]).2.2.1
      else if i = b then (quarterround s[a] s[b] s[c] s[d]).2.1
      else if i = a then (quarterround s[a] s[b] s[c] s[d]).1
      else s[i] := by
  simp only [quarterroundAt, Fin.getElem_fin, Vector.getElem_set, eq_comm (a := i), Fin.ext_iff]

/-- A word outside the group is unchanged. -/
theorem getElem_quarterroundAt_of_ne (s : Block) (a b c d i : Fin 16) (ha : i ≠ a) (hb : i ≠ b) (hc : i ≠ c)
    (hd : i ≠ d) : (quarterroundAt s a b c d)[i] = s[i] := by
  rw [getElem_quarterroundAt, if_neg hd, if_neg hc, if_neg hb, if_neg ha]

/-- Two state vectors with the same sixteen words are equal. -/
theorem Block.ext_fin {s t : Block} (h : ∀ i : Fin 16, s[i] = t[i]) : s = t :=
  Vector.ext fun i hi => h ⟨i, hi⟩

/-- R157: quarterrounds of disjoint groups commute. -/
theorem quarterroundAt_comm (s : Block) (a b c d a' b' c' d' : Fin 16)
    (h : ∀ i ∈ [a, b, c, d], ∀ j ∈ [a', b', c', d'], i ≠ j) :
    quarterroundAt (quarterroundAt s a b c d) a' b' c' d' = quarterroundAt (quarterroundAt s a' b' c' d') a b c d := by
  have key : ∀ i ∈ [a', b', c', d'], (quarterroundAt s a b c d)[i] = s[i] := fun i hi =>
    getElem_quarterroundAt_of_ne s a b c d i (fun e => h a (by simp) i hi e.symm) (fun e => h b (by simp) i hi e.symm)
      (fun e => h c (by simp) i hi e.symm) (fun e => h d (by simp) i hi e.symm)
  have key' : ∀ i ∈ [a, b, c, d], (quarterroundAt s a' b' c' d')[i] = s[i] := fun i hi =>
    getElem_quarterroundAt_of_ne s a' b' c' d' i (h i hi a' (by simp)) (h i hi b' (by simp)) (h i hi c' (by simp))
      (h i hi d' (by simp))
  have e1 := key a' (by simp); have e2 := key b' (by simp); have e3 := key c' (by simp); have e4 := key d' (by simp)
  have f1 := key' a (by simp); have f2 := key' b (by simp); have f3 := key' c (by simp); have f4 := key' d (by simp)
  apply Block.ext_fin
  intro i
  rw [getElem_quarterroundAt (quarterroundAt s a b c d) a' b' c' d' i,
    getElem_quarterroundAt (quarterroundAt s a' b' c' d') a b c d i, e1, e2, e3, e4, f1, f2, f3, f4,
    getElem_quarterroundAt s a b c d i, getElem_quarterroundAt s a' b' c' d' i]
  by_cases hm : i ∈ [a, b, c, d]
  · have n1 := h i hm a' (by simp); have n2 := h i hm b' (by simp); have n3 := h i hm c' (by simp)
    have n4 := h i hm d' (by simp)
    simp only [n1, n2, n3, n4, if_false]
  · simp only [List.mem_cons, List.not_mem_nil, or_false, not_or] at hm
    simp only [hm, if_false]

/-- R150: the shifts-and-or form is the library's rotation. -/
theorem rotl32_eq_rotateLeft (x : Word) (r : Nat) (h : r < 32) : rotl32 x r = x.rotateLeft r := by
  rw [BitVec.rotateLeft_def, rotl32, Nat.mod_eq_of_lt h]

/-- R170: the loop of double rounds is an iterate. -/
theorem doubleRounds_eq_iterate (n : Nat) (s : Block) : doubleRounds n s = doubleRound^[n] s := by
  induction n generalizing s with
  | zero => rfl
  | succ n ih => rw [Function.iterate_succ_apply]; exact ih _

/-- R170, R171: the feed-forward word by word. -/
@[simp] theorem getElem_feedForward (s o : Block) (i : Nat) (h : i < 16) : (feedForward s o)[i] = s[i] + o[i] := by
  simp [feedForward]

end Sys2Proof.Machine
end

