-- ==== Sys2Proof/Laws/State.lean ====
section
/-! SUPPORT. One lemma per field per update of State and Status, so that no later proof unfolds a record update. -/

namespace Sys2Proof.Machine

/-! ### Status.issued -/

@[simp] theorem Status.issued_busy (f : Status) : (f.issued).busy = true := rfl
@[simp] theorem Status.issued_done (f : Status) : (f.issued).done = false := rfl
@[simp] theorem Status.issued_tvalid (f : Status) : (f.issued).tvalid = f.tvalid := rfl
@[simp] theorem Status.issued_tdialect (f : Status) : (f.issued).tdialect = f.tdialect := rfl
@[simp] theorem Status.issued_tkey32 (f : Status) : (f.issued).tkey32 = f.tkey32 := rfl
@[simp] theorem Status.issued_wovr (f : Status) : (f.issued).wovr = f.wovr := rfl
@[simp] theorem Status.issued_err (f : Status) : (f.issued).err = none := rfl

/-! ### Status.completed -/

@[simp] theorem Status.completed_busy (f : Status) (e : Option CmdError) : (f.completed e).busy = false := rfl
@[simp] theorem Status.completed_done (f : Status) (e : Option CmdError) : (f.completed e).done = true := rfl
@[simp] theorem Status.completed_tvalid (f : Status) (e : Option CmdError) : (f.completed e).tvalid = f.tvalid := rfl
@[simp] theorem Status.completed_tdialect (f : Status) (e : Option CmdError) : (f.completed e).tdialect = f.tdialect := rfl
@[simp] theorem Status.completed_tkey32 (f : Status) (e : Option CmdError) : (f.completed e).tkey32 = f.tkey32 := rfl
@[simp] theorem Status.completed_wovr (f : Status) (e : Option CmdError) : (f.completed e).wovr = f.wovr := rfl
@[simp] theorem Status.completed_err (f : Status) (e : Option CmdError) : (f.completed e).err = e := rfl

/-! ### Status.acked -/

@[simp] theorem Status.acked_busy (f : Status) (v : Word) : (f.acked v).busy = f.busy := rfl
@[simp] theorem Status.acked_done (f : Status) (v : Word) : (f.acked v).done = (f.done && !v.getLsbD 1) := rfl
@[simp] theorem Status.acked_tvalid (f : Status) (v : Word) : (f.acked v).tvalid = f.tvalid := rfl
@[simp] theorem Status.acked_tdialect (f : Status) (v : Word) : (f.acked v).tdialect = f.tdialect := rfl
@[simp] theorem Status.acked_tkey32 (f : Status) (v : Word) : (f.acked v).tkey32 = f.tkey32 := rfl
@[simp] theorem Status.acked_wovr (f : Status) (v : Word) : (f.acked v).wovr = (f.wovr && !v.getLsbD 5) := rfl
@[simp] theorem Status.acked_err (f : Status) (v : Word) : (f.acked v).err = f.err := rfl

/-! ### Status.dropped -/

@[simp] theorem Status.dropped_busy (f : Status) : (f.dropped).busy = f.busy := rfl
@[simp] theorem Status.dropped_done (f : Status) : (f.dropped).done = f.done := rfl
@[simp] theorem Status.dropped_tvalid (f : Status) : (f.dropped).tvalid = f.tvalid := rfl
@[simp] theorem Status.dropped_tdialect (f : Status) : (f.dropped).tdialect = f.tdialect := rfl
@[simp] theorem Status.dropped_tkey32 (f : Status) : (f.dropped).tkey32 = f.tkey32 := rfl
@[simp] theorem Status.dropped_wovr (f : Status) : (f.dropped).wovr = true := rfl
@[simp] theorem Status.dropped_err (f : Status) : (f.dropped).err = f.err := rfl

/-! ### Status.built -/

@[simp] theorem Status.built_busy (f : Status) (d : Dialect) (k : Bool) : (f.built d k).busy = f.busy := rfl
@[simp] theorem Status.built_done (f : Status) (d : Dialect) (k : Bool) : (f.built d k).done = f.done := rfl
@[simp] theorem Status.built_tvalid (f : Status) (d : Dialect) (k : Bool) : (f.built d k).tvalid = true := rfl
@[simp] theorem Status.built_tdialect (f : Status) (d : Dialect) (k : Bool) : (f.built d k).tdialect = d := rfl
@[simp] theorem Status.built_tkey32 (f : Status) (d : Dialect) (k : Bool) : (f.built d k).tkey32 = k := rfl
@[simp] theorem Status.built_wovr (f : Status) (d : Dialect) (k : Bool) : (f.built d k).wovr = f.wovr := rfl
@[simp] theorem Status.built_err (f : Status) (d : Dialect) (k : Bool) : (f.built d k).err = f.err := rfl

/-! ### State.issue -/

@[simp] theorem State.issue_params (s : State) (w : Word) : (s.issue w).params = s.params := rfl
@[simp] theorem State.issue_cfg (s : State) (w : Word) : (s.issue w).cfg = s.cfg := rfl
@[simp] theorem State.issue_status (s : State) (w : Word) : (s.issue w).status = s.status.issued := rfl
@[simp] theorem State.issue_len (s : State) (w : Word) : (s.issue w).len = s.len := rfl
@[simp] theorem State.issue_ctrLo (s : State) (w : Word) : (s.issue w).ctrLo = s.ctrLo := rfl
@[simp] theorem State.issue_ctrHi (s : State) (w : Word) : (s.issue w).ctrHi = s.ctrHi := rfl
@[simp] theorem State.issue_key (s : State) (w : Word) : (s.issue w).key = s.key := rfl
@[simp] theorem State.issue_nonce (s : State) (w : Word) : (s.issue w).nonce = s.nonce := rfl
@[simp] theorem State.issue_tmpl (s : State) (w : Word) : (s.issue w).tmpl = s.tmpl := rfl
@[simp] theorem State.issue_orig (s : State) (w : Word) : (s.issue w).orig = s.orig := rfl
@[simp] theorem State.issue_x (s : State) (w : Word) : (s.issue w).x = s.x := rfl
@[simp] theorem State.issue_pend (s : State) (w : Word) : (s.issue w).pend = some { word := w, operands := s.capture } := rfl
@[simp] theorem State.issue_msg (s : State) (w : Word) : (s.issue w).msg = s.msg := rfl
@[simp] theorem State.issue_reply (s : State) (w : Word) : (s.issue w).reply = s.reply := rfl
@[simp] theorem State.issue_draws (s : State) (w : Word) : (s.issue w).draws = s.draws := rfl
@[simp] theorem State.issue_program (s : State) (w : Word) : (s.issue w).program = s.program := rfl
@[simp] theorem State.issue_schedule (s : State) (w : Word) : (s.issue w).schedule = s.schedule := rfl

/-! ### State.completed -/

@[simp] theorem State.completed_params (s : State) (e : Option CmdError) : (s.completed e).params = s.params := rfl
@[simp] theorem State.completed_cfg (s : State) (e : Option CmdError) : (s.completed e).cfg = s.cfg := rfl
@[simp] theorem State.completed_status (s : State) (e : Option CmdError) : (s.completed e).status = s.status.completed e := rfl
@[simp] theorem State.completed_len (s : State) (e : Option CmdError) : (s.completed e).len = s.len := rfl
@[simp] theorem State.completed_ctrLo (s : State) (e : Option CmdError) : (s.completed e).ctrLo = s.ctrLo := rfl
@[simp] theorem State.completed_ctrHi (s : State) (e : Option CmdError) : (s.completed e).ctrHi = s.ctrHi := rfl
@[simp] theorem State.completed_key (s : State) (e : Option CmdError) : (s.completed e).key = s.key := rfl
@[simp] theorem State.completed_nonce (s : State) (e : Option CmdError) : (s.completed e).nonce = s.nonce := rfl
@[simp] theorem State.completed_tmpl (s : State) (e : Option CmdError) : (s.completed e).tmpl = s.tmpl := rfl
@[simp] theorem State.completed_orig (s : State) (e : Option CmdError) : (s.completed e).orig = s.orig := rfl
@[simp] theorem State.completed_x (s : State) (e : Option CmdError) : (s.completed e).x = s.x := rfl
@[simp] theorem State.completed_pend (s : State) (e : Option CmdError) : (s.completed e).pend = none := rfl
@[simp] theorem State.completed_msg (s : State) (e : Option CmdError) : (s.completed e).msg = s.msg := rfl
@[simp] theorem State.completed_reply (s : State) (e : Option CmdError) : (s.completed e).reply = s.reply := rfl
@[simp] theorem State.completed_draws (s : State) (e : Option CmdError) : (s.completed e).draws = s.draws := rfl
@[simp] theorem State.completed_program (s : State) (e : Option CmdError) : (s.completed e).program = s.program := rfl
@[simp] theorem State.completed_schedule (s : State) (e : Option CmdError) : (s.completed e).schedule = s.schedule := rfl

/-! ### State.answer -/

@[simp] theorem State.answer_params (s : State) (r : Reply) : (s.answer r).params = s.params := rfl
@[simp] theorem State.answer_cfg (s : State) (r : Reply) : (s.answer r).cfg = s.cfg := rfl
@[simp] theorem State.answer_status (s : State) (r : Reply) : (s.answer r).status = s.status := rfl
@[simp] theorem State.answer_len (s : State) (r : Reply) : (s.answer r).len = s.len := rfl
@[simp] theorem State.answer_ctrLo (s : State) (r : Reply) : (s.answer r).ctrLo = s.ctrLo := rfl
@[simp] theorem State.answer_ctrHi (s : State) (r : Reply) : (s.answer r).ctrHi = s.ctrHi := rfl
@[simp] theorem State.answer_key (s : State) (r : Reply) : (s.answer r).key = s.key := rfl
@[simp] theorem State.answer_nonce (s : State) (r : Reply) : (s.answer r).nonce = s.nonce := rfl
@[simp] theorem State.answer_tmpl (s : State) (r : Reply) : (s.answer r).tmpl = s.tmpl := rfl
@[simp] theorem State.answer_orig (s : State) (r : Reply) : (s.answer r).orig = s.orig := rfl
@[simp] theorem State.answer_x (s : State) (r : Reply) : (s.answer r).x = s.x := rfl
@[simp] theorem State.answer_pend (s : State) (r : Reply) : (s.answer r).pend = s.pend := rfl
@[simp] theorem State.answer_msg (s : State) (r : Reply) : (s.answer r).msg = s.msg := rfl
@[simp] theorem State.answer_reply (s : State) (r : Reply) : (s.answer r).reply = some r := rfl
@[simp] theorem State.answer_draws (s : State) (r : Reply) : (s.answer r).draws = s.draws := rfl
@[simp] theorem State.answer_program (s : State) (r : Reply) : (s.answer r).program = s.program := rfl
@[simp] theorem State.answer_schedule (s : State) (r : Reply) : (s.answer r).schedule = s.schedule := rfl

/-! ### State.answerAny -/

@[simp] theorem State.answerAny_params (s : State) (n : Width) : (s.answerAny n).params = s.params := rfl
@[simp] theorem State.answerAny_cfg (s : State) (n : Width) : (s.answerAny n).cfg = s.cfg := rfl
@[simp] theorem State.answerAny_status (s : State) (n : Width) : (s.answerAny n).status = s.status := rfl
@[simp] theorem State.answerAny_len (s : State) (n : Width) : (s.answerAny n).len = s.len := rfl
@[simp] theorem State.answerAny_ctrLo (s : State) (n : Width) : (s.answerAny n).ctrLo = s.ctrLo := rfl
@[simp] theorem State.answerAny_ctrHi (s : State) (n : Width) : (s.answerAny n).ctrHi = s.ctrHi := rfl
@[simp] theorem State.answerAny_key (s : State) (n : Width) : (s.answerAny n).key = s.key := rfl
@[simp] theorem State.answerAny_nonce (s : State) (n : Width) : (s.answerAny n).nonce = s.nonce := rfl
@[simp] theorem State.answerAny_tmpl (s : State) (n : Width) : (s.answerAny n).tmpl = s.tmpl := rfl
@[simp] theorem State.answerAny_orig (s : State) (n : Width) : (s.answerAny n).orig = s.orig := rfl
@[simp] theorem State.answerAny_x (s : State) (n : Width) : (s.answerAny n).x = s.x := rfl
@[simp] theorem State.answerAny_pend (s : State) (n : Width) : (s.answerAny n).pend = s.pend := rfl
@[simp] theorem State.answerAny_msg (s : State) (n : Width) : (s.answerAny n).msg = s.msg := rfl
@[simp] theorem State.answerAny_reply (s : State) (n : Width) : (s.answerAny n).reply = some (.data (n.low (Config.anyRead s.draws))) := rfl
@[simp] theorem State.answerAny_draws (s : State) (n : Width) : (s.answerAny n).draws = s.draws + 1 := rfl
@[simp] theorem State.answerAny_program (s : State) (n : Width) : (s.answerAny n).program = s.program := rfl
@[simp] theorem State.answerAny_schedule (s : State) (n : Width) : (s.answerAny n).schedule = s.schedule := rfl

/-! ### State.dropWrite -/

@[simp] theorem State.dropWrite_params (s : State) : (s.dropWrite).params = s.params := rfl
@[simp] theorem State.dropWrite_cfg (s : State) : (s.dropWrite).cfg = s.cfg := rfl
@[simp] theorem State.dropWrite_status (s : State) : (s.dropWrite).status = s.status.dropped := rfl
@[simp] theorem State.dropWrite_len (s : State) : (s.dropWrite).len = s.len := rfl
@[simp] theorem State.dropWrite_ctrLo (s : State) : (s.dropWrite).ctrLo = s.ctrLo := rfl
@[simp] theorem State.dropWrite_ctrHi (s : State) : (s.dropWrite).ctrHi = s.ctrHi := rfl
@[simp] theorem State.dropWrite_key (s : State) : (s.dropWrite).key = s.key := rfl
@[simp] theorem State.dropWrite_nonce (s : State) : (s.dropWrite).nonce = s.nonce := rfl
@[simp] theorem State.dropWrite_tmpl (s : State) : (s.dropWrite).tmpl = s.tmpl := rfl
@[simp] theorem State.dropWrite_orig (s : State) : (s.dropWrite).orig = s.orig := rfl
@[simp] theorem State.dropWrite_x (s : State) : (s.dropWrite).x = s.x := rfl
@[simp] theorem State.dropWrite_pend (s : State) : (s.dropWrite).pend = s.pend := rfl
@[simp] theorem State.dropWrite_msg (s : State) : (s.dropWrite).msg = s.msg := rfl
@[simp] theorem State.dropWrite_reply (s : State) : (s.dropWrite).reply = some .written := rfl
@[simp] theorem State.dropWrite_draws (s : State) : (s.dropWrite).draws = s.draws := rfl
@[simp] theorem State.dropWrite_program (s : State) : (s.dropWrite).program = s.program := rfl
@[simp] theorem State.dropWrite_schedule (s : State) : (s.dropWrite).schedule = s.schedule := rfl

/-! ### State.writeMsg -/

@[simp] theorem State.writeMsg_params (s : State) (a : Nat) (n : Width) (v : Word) : (s.writeMsg a n v).params = s.params := rfl
@[simp] theorem State.writeMsg_cfg (s : State) (a : Nat) (n : Width) (v : Word) : (s.writeMsg a n v).cfg = s.cfg := rfl
@[simp] theorem State.writeMsg_status (s : State) (a : Nat) (n : Width) (v : Word) : (s.writeMsg a n v).status = s.status := rfl
@[simp] theorem State.writeMsg_len (s : State) (a : Nat) (n : Width) (v : Word) : (s.writeMsg a n v).len = s.len := rfl
@[simp] theorem State.writeMsg_ctrLo (s : State) (a : Nat) (n : Width) (v : Word) : (s.writeMsg a n v).ctrLo = s.ctrLo := rfl
@[simp] theorem State.writeMsg_ctrHi (s : State) (a : Nat) (n : Width) (v : Word) : (s.writeMsg a n v).ctrHi = s.ctrHi := rfl
@[simp] theorem State.writeMsg_key (s : State) (a : Nat) (n : Width) (v : Word) : (s.writeMsg a n v).key = s.key := rfl
@[simp] theorem State.writeMsg_nonce (s : State) (a : Nat) (n : Width) (v : Word) : (s.writeMsg a n v).nonce = s.nonce := rfl
@[simp] theorem State.writeMsg_tmpl (s : State) (a : Nat) (n : Width) (v : Word) : (s.writeMsg a n v).tmpl = s.tmpl := rfl
@[simp] theorem State.writeMsg_orig (s : State) (a : Nat) (n : Width) (v : Word) : (s.writeMsg a n v).orig = s.orig := rfl
@[simp] theorem State.writeMsg_x (s : State) (a : Nat) (n : Width) (v : Word) : (s.writeMsg a n v).x = s.x := rfl
@[simp] theorem State.writeMsg_pend (s : State) (a : Nat) (n : Width) (v : Word) : (s.writeMsg a n v).pend = s.pend := rfl
@[simp] theorem State.writeMsg_msg (s : State) (a : Nat) (n : Width) (v : Word) : (s.writeMsg a n v).msg = s.msg.writeLE a n.bytes v := rfl
@[simp] theorem State.writeMsg_reply (s : State) (a : Nat) (n : Width) (v : Word) : (s.writeMsg a n v).reply = s.reply := rfl
@[simp] theorem State.writeMsg_draws (s : State) (a : Nat) (n : Width) (v : Word) : (s.writeMsg a n v).draws = s.draws := rfl
@[simp] theorem State.writeMsg_program (s : State) (a : Nat) (n : Width) (v : Word) : (s.writeMsg a n v).program = s.program := rfl
@[simp] theorem State.writeMsg_schedule (s : State) (a : Nat) (n : Width) (v : Word) : (s.writeMsg a n v).schedule = s.schedule := rfl

/-! ### State.afterTurn -/

@[simp] theorem State.afterTurn_params (s : State) : (s.afterTurn).params = s.params := rfl
@[simp] theorem State.afterTurn_cfg (s : State) : (s.afterTurn).cfg = s.cfg := rfl
@[simp] theorem State.afterTurn_status (s : State) : (s.afterTurn).status = s.status := rfl
@[simp] theorem State.afterTurn_len (s : State) : (s.afterTurn).len = s.len := rfl
@[simp] theorem State.afterTurn_ctrLo (s : State) : (s.afterTurn).ctrLo = s.ctrLo := rfl
@[simp] theorem State.afterTurn_ctrHi (s : State) : (s.afterTurn).ctrHi = s.ctrHi := rfl
@[simp] theorem State.afterTurn_key (s : State) : (s.afterTurn).key = s.key := rfl
@[simp] theorem State.afterTurn_nonce (s : State) : (s.afterTurn).nonce = s.nonce := rfl
@[simp] theorem State.afterTurn_tmpl (s : State) : (s.afterTurn).tmpl = s.tmpl := rfl
@[simp] theorem State.afterTurn_orig (s : State) : (s.afterTurn).orig = s.orig := rfl
@[simp] theorem State.afterTurn_x (s : State) : (s.afterTurn).x = s.x := rfl
@[simp] theorem State.afterTurn_pend (s : State) : (s.afterTurn).pend = s.pend := rfl
@[simp] theorem State.afterTurn_msg (s : State) : (s.afterTurn).msg = s.msg := rfl
@[simp] theorem State.afterTurn_reply (s : State) : (s.afterTurn).reply = s.reply := rfl
@[simp] theorem State.afterTurn_draws (s : State) : (s.afterTurn).draws = s.draws := rfl
@[simp] theorem State.afterTurn_program (s : State) : (s.afterTurn).program = s.nextProgram := rfl
@[simp] theorem State.afterTurn_schedule (s : State) : (s.afterTurn).schedule = s.schedule.tail := rfl

end Sys2Proof.Machine
end

