-- ==== Sys2Proof/Laws/Step.lean ====
section
/-! SUPPORT. What running commands and steps can do: every command and every turn answers a next state, a command is
`complete` of its run, and the host's run of the machine unfolds to steps. -/

namespace Sys2Proof.Machine

/-- Every completion answers a next state: the writes with code 0, or no writes with the error (R203, R201). -/
theorem complete_eq_next (s : State) (r : Except CmdError State) :
    s.complete r = .next (match r with | .ok t => t.completed none | .error e => s.completed (some e)) := by
  cases r <;> rfl

/-- The run of a command on operands: its writes, or its error. -/
def runOf (i : Instr) (o : Operands) (s : State) : Except CmdError State :=
  match i with
  | .init           => runInit o s
  | .ldctr          => runLdctr o s
  | .qr qa qb qc qd => .ok { s with x := quarterroundAt o.x qa qb qc qd }
  | .colr           => .ok { s with x := colRound o.x }
  | .diagr          => .ok { s with x := diagRound o.x }
  | .ffwd           => .ok { s with x := feedForward o.x o.orig }
  | .hash           => runHash o s
  | .crypt          => runCrypt o s

/-- Every command is the completion of its run on the captured operands (R203). -/
theorem exec_eq_complete (i : Instr) (s : State) : exec i s = s.complete (runOf i s.operands s) := by
  cases i <;> rfl

/-- What a successful run writes: at most TMPL and STATUS.T*, ORIG, X and MSG. -/
theorem runOf_ok_frame (i : Instr) (o : Operands) (s t : State) (h : runOf i o s = .ok t) :
    t = { s with
      tmpl := t.tmpl, orig := t.orig, x := t.x, msg := t.msg
      status := { s.status with
        tvalid := t.status.tvalid, tdialect := t.status.tdialect, tkey32 := t.status.tkey32 } } := by
  cases i with
  | init =>
    simp only [runOf, runInit] at h
    split at h; · cases h
    split at h; · cases h
    cases h; rfl
  | ldctr =>
    simp only [runOf, runLdctr] at h
    split at h; · cases h
    split at h <;> cases h
    rfl
  | hash =>
    simp only [runOf, runHash] at h
    split at h <;> cases h
    rfl
  | crypt =>
    simp only [runOf, runCrypt] at h
    split at h; · cases h
    split at h; · cases h
    split at h; · cases h
    split at h; · cases h
    cases h; rfl
  | _ => simp only [runOf, Except.ok.injEq] at h; cases h; rfl

/-- Every turn answers a next state. -/
theorem takeTurn_next (t : Turn) (s : State) : ∃ u, takeTurn t s = .next u := by
  cases t with
  | engine =>
    simp only [takeTurn, engineTurn]
    split
    · exact ⟨_, rfl⟩
    · split
      · rw [exec_eq_complete, complete_eq_next]; exact ⟨_, rfl⟩
      · rw [complete_eq_next]; exact ⟨_, rfl⟩
  | _ => exact ⟨_, rfl⟩

/-- Everything the engine's turn can do (R203): nothing, with no command in flight; the writes of the command in flight;
or an error, that command's own or IllegalCommand, and no writes. -/
theorem engineTurn_cases (s u : State) (h : engineTurn s = .next u) :
    (s.pend = none ∧ u = s) ∨
    (∃ p i t, s.pend = some p ∧ decode p.word = .command i ∧ runOf i p.operands s = .ok t ∧ u = t.completed none) ∨
    (∃ p e, s.pend = some p ∧ u = s.completed (some e) ∧
      ((∃ i, decode p.word = .command i ∧ runOf i p.operands s = .error e) ∨
       (∃ r, decode p.word = .illegal r ∧ e = .illegalCommand))) := by
  unfold engineTurn at h
  split at h
  · next hp => cases h; exact .inl ⟨hp, rfl⟩
  · next p hp =>
    have ho : s.operands = p.operands := by rw [State.operands, hp]
    split at h
    · next i hi =>
      rw [exec_eq_complete, complete_eq_next, ho, Host.Outcome.next.injEq] at h
      cases hr : runOf i p.operands s with
      | ok t => rw [hr] at h; exact .inr (.inl ⟨p, i, t, hp, hi, hr, h.symm⟩)
      | error e => rw [hr] at h; exact .inr (.inr ⟨p, e, hp, h.symm, .inl ⟨i, hi, hr⟩⟩)
    · next r hr => cases h; exact .inr (.inr ⟨p, _, hp, rfl, .inr ⟨r, hr, rfl⟩⟩)

/-- R87: what a write to a register while idle leaves unchanged. -/
theorem writeReg_frame (s : State) (v : Word) (r : Reg) :
    s.writeReg v r = { s.writeReg v r with
      params := s.params, tmpl := s.tmpl, orig := s.orig, msg := s.msg, reply := s.reply, draws := s.draws
      program := s.program, schedule := s.schedule } ∧
    (s.writeReg v r).status.tvalid = s.status.tvalid ∧ (s.writeReg v r).status.tdialect = s.status.tdialect ∧
    (s.writeReg v r).status.tkey32 = s.status.tkey32 := by
  cases r <;> exact ⟨rfl, rfl, rfl, rfl⟩

/-- R206: acknowledging clears DONE and touches nothing else. -/
theorem acknowledge_eq (s : State) : s.acknowledge = { s with status := { s.status with done := false } } := by
  simp [State.acknowledge, State.writeReg, Status.acked]

theorem writeReg_busy (s : State) (v : Word) (r : Reg) :
    (s.writeReg v r).status.busy = if r = .cmd then true else s.status.busy := by
  cases r <;> rfl

theorem writeReg_err (s : State) (v : Word) (r : Reg) :
    (s.writeReg v r).status.err = if r = .cmd then none else s.status.err := by
  cases r <;> rfl

theorem writeReg_done (s : State) (v : Word) (r : Reg) (h : (s.writeReg v r).status.done = true) :
    s.status.done = true := by
  cases r <;> simp [State.writeReg, State.issue, Status.issued, Status.acked] at h <;> tauto

/-! ### The schedule (log 1) -/

theorem nextTurn_turn (s : State) (t : Turn) (rest : List Slot) (h : s.schedule = .turn t :: rest) :
    s.nextTurn = t := by
  simp [State.nextTurn, h, State.turnOf]

theorem nextTurn_host (s : State) (l : HostLine) (lines : List HostLine) (rest : List Slot) (hp : s.program = l :: lines)
    (h : s.schedule = .host :: rest) : s.nextTurn = l.turn s.params := by
  simp [State.nextTurn, h, State.turnOf, hp]

theorem nextTurn_nil (s : State) (h : s.schedule = []) : s.nextTurn = .engine := by
  simp [State.nextTurn, h, State.turnOf]

@[simp] theorem linesLeft_nil (busy : Bool) : linesLeft busy [] = [] := rfl

@[simp] theorem linesLeft_idle (lines : List HostLine) : linesLeft false lines = lines.tail := by
  cases lines <;> simp [linesLeft]

@[simp] theorem linesLeft_wait (busy : Bool) (lines : List HostLine) :
    linesLeft busy (.wait :: lines) = if busy then .wait :: lines else lines := by
  simp [linesLeft]

theorem linesLeft_line (busy : Bool) (l : HostLine) (lines : List HostLine) (h : l ≠ .wait) :
    linesLeft busy (l :: lines) = lines := by
  simp [linesLeft, h]

/-- No line of the host is the engine's turn or reset. -/
theorem hostLine_turn_cases (l : HostLine) (p : Params) : (∃ addr n, l.turn p = .read addr n) ∨
    (∃ addr n v, l.turn p = .write addr n v) := by
  cases l <;> simp [HostLine.turn]

/-- The engine's turn moves no host. -/
theorem nextProgram_of_engine (s : State) (h : s.nextTurn = .engine) : s.nextProgram = s.program := by
  unfold State.nextProgram
  split
  · next rest hs =>
    cases hp : s.program with
    | nil => rfl
    | cons l lines =>
      rw [nextTurn_host s l lines rest hp hs] at h
      cases l <;> cases h
  · rfl

/-- A slot with its own turn: that turn is taken. -/
theorem step_turn (s : State) (t : Turn) (rest : List Slot) (h : s.schedule = .turn t :: rest) :
    step s = takeTurn t { s with schedule := rest } := by
  rw [step, nextTurn_turn s t rest h, State.afterTurn, State.nextProgram, h]; rfl

/-- A slot of the host: the transaction of the line it is at is taken, and the host moves on as R118 says. -/
theorem step_host (s : State) (l : HostLine) (lines : List HostLine) (rest : List Slot) (hp : s.program = l :: lines)
    (h : s.schedule = .host :: rest) :
    step s = takeTurn (l.turn s.params)
      { s with program := linesLeft s.status.busy (l :: lines), schedule := rest } := by
  rw [step, nextTurn_host s l lines rest hp h, State.afterTurn, State.nextProgram, h, hp]; rfl

/-- The host's run of the machine, one step at a time. -/
theorem core_run_succ (k : Nat) (s t : State) (h : step s = .next t) : core.run (k + 1) s = core.run k t := by
  have : core.step s = .next t := h
  simp only [Host.Core.run]
  rw [this]

end Sys2Proof.Machine
end

