-- ==== Sys2Proof/Laws/Commands.lean ====
section
/-! SUPPORT. The operands and the functions of the commands: CFG's fields as arithmetic, the start counter, the words of
a template, CRYPT's loop byte by byte. -/

namespace Sys2Proof.Machine

/-! ### Operands -/

theorem cfgKeyLen_eq (w : Word) : cfgKeyLen w = w.toNat / 2 ^ 16 % 2 ^ 6 := by
  simp [cfgKeyLen, Nat.shiftRight_eq_div_pow]

theorem cfgNonceLen_eq (w : Word) : cfgNonceLen w = w.toNat / 2 ^ 24 % 2 ^ 4 := by
  simp [cfgNonceLen, Nat.shiftRight_eq_div_pow]

theorem cfgRounds_eq (w : Word) : cfgRounds w = w.toNat / 2 ^ 8 % 2 ^ 8 := by
  simp [cfgRounds, Nat.shiftRight_eq_div_pow]

theorem roundsLegal_iff (r : Nat) : roundsLegal r = true ↔ r ≠ 0 ∧ r % 2 = 0 := by simp [roundsLegal]

theorem nonceLen_cfgDialect (w : Word) : (cfgDialect w).nonceLen = if w.getLsbD 0 then 8 else 12 := by
  rw [cfgDialect]; split <;> rfl

theorem counterLimit_eq (d : Dialect) : counterLimit d = 2 ^ d.counterBits := by cases d <;> rfl

/-- R135: the start counter by its description from the register bits. -/
theorem startCounter_eq (o : Operands) (c : Nat) (h : StartCounterIs o c) : o.startCounter = c := by
  obtain ⟨h1, h2⟩ := h
  unfold Operands.startCounter
  by_cases hb : cfgCtrOvr o.cfg = true
  · rw [if_pos hb]; exact (h1 hb).symm
  · rw [if_neg hb, h2 (by simpa [cfgCtrOvr] using hb)]; cases o.tdialect <;> rfl

/-! ### The template -/

/-- R132: constants, key words and the zero counter word of a template, in both dialects. -/
theorem buildTemplateState_words (key nonce : List Byte) (d : Dialect) :
    (∀ i : Fin 4, (buildTemplateState key nonce d)[i.val] = (constantRow key.length)[i]) ∧
    (∀ n : Fin 8, (buildTemplateState key nonce d)[4 + n.val] = keyWord key n) ∧
    (buildTemplateState key nonce d)[12] = 0 := by
  refine ⟨?_, ?_, ?_⟩
  · intro i; cases d <;> fin_cases i <;> rfl
  · intro n; cases d <;> fin_cases n <;> rfl
  · cases d <;> rfl

/-! ### CRYPT -/

/-- R182: the blocks from `b` on XOR the message bytes they cover, and no other byte, with the keystream of each byte's
own counter. -/
theorem read_cryptBlocks (t : Block) (d : Dialect) (r sc len n b : Nat) (w : BlockWork) (a : Nat) :
    (cryptBlocks t d r sc len n b w).msg.read a =
      if 64 * b ≤ a ∧ a < 64 * (b + n) ∧ a < len then
        w.msg.read a ^^^ ((keystreamBlock t (sc + a / 64) d r)[a % 64]?).getD 0
      else w.msg.read a := by
  induction n generalizing b w with
  | zero => rw [if_neg (by omega)]; rfl
  | succ n ih =>
    rw [cryptBlocks, ih]
    simp only [Memory.read_xorBytes, List.length_take, length_serLE]
    by_cases hin : 64 * b ≤ a ∧ a - 64 * b < min (min 64 (len - 64 * b)) 64
    · rw [dif_pos hin, if_neg (by omega), if_pos (by omega)]
      have h1 : a / 64 = b := by omega
      have h2 : a - 64 * b = a % 64 := by omega
      simp only [List.getElem_take, h2, h1, keystreamBlock]
      rw [List.getElem?_eq_getElem (by simp; omega)]; rfl
    · rw [dif_neg hin]
      by_cases h3 : 64 * (b + 1) ≤ a ∧ a < 64 * (b + 1 + n) ∧ a < len
      · rw [if_pos h3, if_pos (by omega)]
      · rw [if_neg h3, if_neg (by omega)]

/-- R182: X and ORIG after one block or more are the last block's. -/
theorem cryptBlocks_last (t : Block) (d : Dialect) (r sc len n b : Nat) (w : BlockWork) :
    (cryptBlocks t d r sc len (n + 1) b w).orig = counterBlock t (sc + b + n) d ∧
    (cryptBlocks t d r sc len (n + 1) b w).x = chachaHash (counterBlock t (sc + b + n) d) r := by
  induction n generalizing b w with
  | zero => exact ⟨rfl, rfl⟩
  | succ n ih =>
    rw [cryptBlocks, show sc + b + (n + 1) = sc + (b + 1) + n by omega]
    exact ih _ _

/-- CRYPT's loop keeps the buffer's form, and stays inside a buffer the message fits in. -/
theorem cryptBlocks_msg (t : Block) (d : Dialect) (r sc len n b : Nat) (w : BlockWork) (size : Nat) (hw : w.msg.wf)
    (hi : w.msg.within size) (hl : len ≤ size) :
    (cryptBlocks t d r sc len n b w).msg.wf ∧ (cryptBlocks t d r sc len n b w).msg.within size := by
  induction n generalizing b w with
  | zero => exact ⟨hw, hi⟩
  | succ n ih =>
    rw [cryptBlocks]
    apply ih
    · exact Memory.xorBytes_wf _ _ _ hw
    · by_cases hb : 64 * b ≤ len
      · apply Memory.xorBytes_within _ _ _ _ hi
        simp; omega
      · simp only [show min 64 (len - 64 * b) = 0 by omega, List.take_zero]; exact hi

/-- R182: CRYPT's run when its four checks pass. -/
theorem runCrypt_ok (o : Operands) (s : State) (hv : o.tvalid = true) (hr : roundsLegal (cfgRounds o.cfg) = true)
    (hl : o.len.toNat ≤ s.params.msgBytes)
    (hc : ¬ (0 < blocksNeeded o.len.toNat ∧
      2 ^ o.tdialect.counterBits ≤ o.startCounter + blocksNeeded o.len.toNat - 1)) :
    runCrypt o s = .ok (
      let w := cryptBlocks o.tmpl o.tdialect (cfgRounds o.cfg) o.startCounter o.len.toNat (blocksNeeded o.len.toNat) 0
        { orig := s.orig, x := s.x, msg := s.msg }
      { s with orig := w.orig, x := w.x, msg := w.msg }) := by
  rw [runCrypt]
  dsimp only
  rw [if_neg (by simp [hv]), if_neg (by simp [hr]), if_neg (by omega), if_neg hc]

end Sys2Proof.Machine
end

