-- ==== Sys2Proof/Laws/Decode.lean ====
section
/-! SUPPORT. The decoder's fields and QR's selection condition as arithmetic on the word's number. -/

namespace Sys2Proof

theorem nibble_val (w : Word) (lo : Nat) : (nibble w lo).val = w.toNat / 2 ^ lo % 16 := by
  simp [nibble, Nat.shiftRight_eq_div_pow]

/-- R112's condition on QR: bits 7:0 are 0x03 and bits 31:24 are 0. -/
theorem qr_mask_iff (w : Word) :
    w &&& 0xFF0000FF = 0x00000003 ↔ w.toNat % 2 ^ 8 = 3 ∧ w.toNat / 2 ^ 24 = 0 := by
  have hlo : w.toNat % 2 ^ 8 = 3 ↔ w.extractLsb' 0 8 = 3#8 := by
    rw [← BitVec.toNat_inj]; simp [BitVec.extractLsb'_toNat]
  have hhi : w.toNat / 2 ^ 24 = 0 ↔ w.extractLsb' 24 8 = 0#8 := by
    rw [← BitVec.toNat_inj]; simp [BitVec.extractLsb'_toNat, Nat.shiftRight_eq_div_pow]; omega
  rw [hlo, hhi]
  constructor
  · intro h
    have hb : ∀ i, (w &&& 0xFF0000FF).getLsbD i = (0x00000003 : Word).getLsbD i := fun i => by rw [h]
    simp only [BitVec.getLsbD_and] at hb
    constructor <;> ext i hi <;> rw [BitVec.getElem_extractLsb'] <;> have := hb (24 + i) <;> have := hb (0 + i) <;>
      interval_cases i <;> simp_all
  · rintro ⟨h1, h2⟩
    have hb : ∀ i, (w.extractLsb' 0 8).getLsbD i = (3#8).getLsbD i := fun i => by rw [h1]
    have hc : ∀ i, (w.extractLsb' 24 8).getLsbD i = (0#8).getLsbD i := fun i => by rw [h2]
    simp only [BitVec.getLsbD_extractLsb'] at hb hc
    ext i hi
    have h3 := hb i
    have h4 := hc (i - 24)
    interval_cases i <;> simp_all [BitVec.getLsbD_eq_getElem]

/-- Placing a field above the bits already there adds its value. -/
theorem toNat_or_placed (w : Word) (q : Fin 16) (lo : Nat) (hw : w.toNat < 2 ^ lo) (hlo : lo + 4 ≤ 32) :
    (w ||| placed q lo).toNat = w.toNat + 2 ^ lo * q.val := by
  have hq : q.val * 2 ^ lo < 2 ^ 32 := by
    calc q.val * 2 ^ lo < 2 ^ 4 * 2 ^ lo := (Nat.mul_lt_mul_right (by positivity)).2 q.isLt
      _ = 2 ^ (lo + 4) := by rw [← pow_add, Nat.add_comm]
      _ ≤ 2 ^ 32 := Nat.pow_le_pow_right (by norm_num) hlo
  have hp : (placed q lo).toNat = q.val <<< lo := by
    have h16 := q.isLt
    rw [placed, BitVec.toNat_shiftLeft, BitVec.toNat_ofNat, Nat.mod_eq_of_lt (show q.val < 2 ^ 32 by omega),
      Nat.shiftLeft_eq, Nat.mod_eq_of_lt hq]
  rw [BitVec.toNat_or, hp, Nat.or_comm, ← Nat.shiftLeft_add_eq_or_of_lt hw, Nat.shiftLeft_eq]
  ring

/-- R116: the number of QR's word. -/
theorem toNat_encode_qr (qa qb qc qd : Fin 16) : (encode (.qr qa qb qc qd)).toNat =
    3 + 2 ^ 8 * qa.val + 2 ^ 12 * qb.val + 2 ^ 16 * qc.val + 2 ^ 20 * qd.val := by
  have ha := qa.isLt; have hb := qb.isLt; have hc := qc.isLt; have hd := qd.isLt
  have h3 : (0x00000003 : Word).toNat = 3 := rfl
  have h1 := toNat_or_placed 0x00000003 qa 8 (by decide) (by omega)
  have h2 := toNat_or_placed (0x00000003 ||| placed qa 8) qb 12 (by rw [h1, h3]; omega) (by omega)
  have h4 := toNat_or_placed (0x00000003 ||| placed qa 8 ||| placed qb 12) qc 16 (by rw [h2, h1, h3]; omega) (by omega)
  have h5 := toNat_or_placed (0x00000003 ||| placed qa 8 ||| placed qb 12 ||| placed qc 16) qd 20
    (by rw [h4, h2, h1, h3]; omega) (by omega)
  rw [encode, h5, h4, h2, h1, h3]

/-- R112, inverted: what a word is that decodes to a command. -/
theorem decode_command_cases (w : Word) (i : Instr) (h : decode w = .command i) :
    (i = .init ∧ w = 0x00000001) ∨ (i = .ldctr ∧ w = 0x00000002) ∨
    (i = .qr (fieldQA w) (fieldQB w) (fieldQC w) (fieldQD w) ∧ w &&& 0xFF0000FF = 0x00000003) ∨
    (i = .colr ∧ w = 0x00000004) ∨ (i = .diagr ∧ w = 0x00000005) ∨ (i = .ffwd ∧ w = 0x00000006) ∨
    (i = .hash ∧ w = 0x00000007) ∨ (i = .crypt ∧ w = 0x00000008) := by
  unfold decode at h
  repeat' split at h
  all_goals first | (cases h; done) | (cases h; simp_all)

end Sys2Proof
end

