-- ==== Sys2Proof/Laws/PerInstr.lean ====
section
/-! SUPPORT. What is said of every instruction as syntax, one lemma per constructor: its word meets the mask and the match
of its row of spec/opcode_table.json. -/

namespace Sys2Proof.Laws.TableRow

/-- The row's mask. -/
def rowMask : Instr → Word
  | .qr _ _ _ _ => 0xFF0000FF
  | .init | .ldctr | .colr | .diagr | .ffwd | .hash | .crypt => 0xFFFFFFFF

/-- The row's match. -/
def rowMatch : Instr → Word
  | .init       => 0x00000001
  | .ldctr      => 0x00000002
  | .qr _ _ _ _ => 0x00000003
  | .colr       => 0x00000004
  | .diagr      => 0x00000005
  | .ffwd       => 0x00000006
  | .hash       => 0x00000007
  | .crypt      => 0x00000008

/-- The instruction's word is one of its row's words. -/
def Statement (i : Instr) : Prop := encode i &&& rowMask i = rowMatch i

theorem init : Statement .init := by unfold Statement; decide
theorem ldctr : Statement .ldctr := by unfold Statement; decide
theorem qr (qa qb qc qd : Fin 16) : Statement (.qr qa qb qc qd) := by
  have ha := qa.isLt; have hb := qb.isLt; have hc := qc.isLt; have hd := qd.isLt
  exact (qr_mask_iff _).2 (by rw [toNat_encode_qr]; omega)
theorem colr : Statement .colr := by unfold Statement; decide
theorem diagr : Statement .diagr := by unfold Statement; decide
theorem ffwd : Statement .ffwd := by unfold Statement; decide
theorem hash : Statement .hash := by unfold Statement; decide
theorem crypt : Statement .crypt := by unfold Statement; decide

end Sys2Proof.Laws.TableRow
end

