-- ==== Sys2Proof/Laws/Port.lean ====
section
/-! SUPPORT. What the port decodes an access to (R30, R81, R83, R84), and what a transaction can do. -/

namespace Sys2Proof.Machine

/-- An aligned 32-bit access to the register region reaches the register of its offset. -/
theorem target_register (p : Params) (off : Nat) (h : off < 0x1000) (h4 : off % 4 = 0) :
    target p (p.base + off) .word = .register (Reg.ofOffset off) := by
  have h1 : ¬ (p.base + off < p.base ∨ p.base + 0x1000 + p.msgBytes < p.base + off + Width.word.bytes) := by
    simp only [Width.bytes]; omega
  rw [target, if_neg h1]
  simp only [Nat.add_sub_cancel_left, h, h4, and_self, if_true]

/-- A naturally aligned access inside the MSG window reaches the buffer at its address. -/
theorem target_message (p : Params) (a : Nat) (n : Width) (ha : a % n.bytes = 0) (h : a + n.bytes ≤ p.msgBytes) :
    target p (p.base + 0x1000 + a) n = .message a := by
  have h1 : ¬ (p.base + 0x1000 + a < p.base ∨ p.base + 0x1000 + p.msgBytes < p.base + 0x1000 + a + n.bytes) := by omega
  have h2 : p.base + 0x1000 + a - p.base = 0x1000 + a := by omega
  rw [target, if_neg h1]
  simp only [h2, Nat.add_sub_cancel_left, ha, if_true]
  rw [if_neg (by omega)]

/-- An access the port takes for a register is a legal one, and which one. -/
theorem target_eq_register (p : Params) (addr : Nat) (n : Width) (r : Reg) (h : target p addr n = .register r) :
    ∃ off, addr = p.base + off ∧ off < 0x1000 ∧ off % 4 = 0 ∧ n = .word ∧ r = Reg.ofOffset off := by
  unfold target at h
  split at h; · cases h
  next hin =>
  simp only at h
  split at h
  · next hlt =>
    split at h
    · next hal => cases h; exact ⟨addr - p.base, by omega, hlt, hal.2, hal.1, rfl⟩
    · cases h
  · split at h <;> cases h

/-- An access the port takes for MSG is a legal one, and which one. -/
theorem target_eq_message (p : Params) (addr : Nat) (n : Width) (a : Nat) (h : target p addr n = .message a) :
    addr = p.base + 0x1000 + a ∧ a % n.bytes = 0 ∧ a + n.bytes ≤ p.msgBytes := by
  unfold target at h
  split at h; · cases h
  next hin =>
  simp only at h
  split at h
  · split at h <;> cases h
  · next hge =>
    split at h
    · next hal =>
      rw [Target.message.injEq] at h
      subst h
      exact ⟨by omega, hal, by omega⟩
    · cases h

/-- The offsets of the registers a read or write can name by one offset. -/
theorem reg_ofOffset_eq_cmd (off : Nat) (h : Reg.ofOffset off = .cmd) : off = 0x004 := by
  unfold Reg.ofOffset at h
  repeat' split at h
  all_goals first | (cases h; done) | assumption

theorem reg_ofOffset_eq_status (off : Nat) (h : Reg.ofOffset off = .status) : off = 0x008 := by
  unfold Reg.ofOffset at h
  repeat' split at h
  all_goals first | (cases h; done) | assumption

@[simp] theorem reg_ofOffset_key (n : Fin 8) : Reg.ofOffset (0x020 + 4 * n) = .key n := by
  revert n; decide

@[simp] theorem reg_ofOffset_nonce (n : Fin 3) : Reg.ofOffset (0x040 + 4 * n) = .nonce n := by
  revert n; decide

@[simp] theorem reg_ofOffset_tmpl (i : Fin 16) : Reg.ofOffset (0x100 + 4 * i) = .tmpl i := by
  revert i; decide

@[simp] theorem reg_ofOffset_orig (i : Fin 16) : Reg.ofOffset (0x140 + 4 * i) = .orig i := by
  revert i; decide

@[simp] theorem reg_ofOffset_x (i : Fin 16) : Reg.ofOffset (0x180 + 4 * i) = .x i := by
  revert i; decide

/-- R30: the reserved offsets. -/
theorem reg_ofOffset_reserved (off : Nat)
    (h : (0x018 ≤ off ∧ off < 0x020) ∨ (0x04C ≤ off ∧ off < 0x100) ∨ 0x1C0 ≤ off) : Reg.ofOffset off = .reserved := by
  unfold Reg.ofOffset
  iterate 6 rw [if_neg (by omega)]
  iterate 5 rw [dif_neg (by omega)]

/-- R81, R84, R86: a write answers, and otherwise does one of four things. -/
theorem busWrite_cases (s : State) (addr : Nat) (n : Width) (v : Word) :
    (∃ r, s.status.busy = false ∧ target s.params addr n = .register r ∧
      s.busWrite addr n v = (s.writeReg v r).answer .written) ∨
    (∃ a, s.status.busy = false ∧ target s.params addr n = .message a ∧
      s.busWrite addr n v = (s.writeMsg a n v).answer .written) ∨
    (s.status.busy = true ∧ LegalAccess s.params addr n ∧ s.busWrite addr n v = s.dropWrite) ∨
    (∃ r, s.busWrite addr n v = s.answer r) := by
  cases ht : target s.params addr n with
  | register r =>
    obtain ⟨off, h1, h2, h3, h4, h5⟩ := target_eq_register _ _ _ _ ht
    cases hb : s.status.busy
    · exact .inl ⟨r, rfl, rfl, by simp [State.busWrite, ht, hb]⟩
    · exact .inr (.inr (.inl ⟨rfl, .inl ⟨off, h1, h2, h3, h4⟩, by simp [State.busWrite, ht, hb]⟩))
  | message a =>
    obtain ⟨h1, h2, h3⟩ := target_eq_message _ _ _ _ ht
    cases hb : s.status.busy
    · exact .inr (.inl ⟨a, rfl, rfl, by simp [State.busWrite, ht, hb]⟩)
    · exact .inr (.inr (.inl ⟨rfl, .inr ⟨a, h1, h2, h3⟩, by simp [State.busWrite, ht, hb]⟩))
  | refused => exact .inr (.inr (.inr ⟨.error, by simp [State.busWrite, ht]⟩))
  | elsewhere => exact .inr (.inr (.inr ⟨.unanswered, by simp [State.busWrite, ht]⟩))

/-- R85: a read changes nothing but the model's own answer and draw count. -/
theorem busRead_frame (s : State) (addr : Nat) (n : Width) :
    ∃ r d, s.busRead addr n = { s with reply := r, draws := d } := by
  unfold State.busRead
  split
  · split <;> exact ⟨_, _, rfl⟩
  · split <;> exact ⟨_, _, rfl⟩
  · exact ⟨_, _, rfl⟩
  · exact ⟨_, _, rfl⟩

end Sys2Proof.Machine
end

