-- ==== Sys2Proof/Tests/Slice0.lean ====
section
/-! SUPPORT. Tests of one decode or one step each, with words and values from spec/95_test_vectors, and for every
obligation with hypotheses a witness that meets them. -/

namespace Sys2Proof.Machine

/-! ### Helpers -/

/-- The next state, if there is one. -/
def nextOf : Host.Outcome State Fault Refusal → Option State
  | .next t    => some t
  | .fault _   => none
  | .refused _ => none

/-- A field of the next state of one command run alone. -/
def ran {α : Type} (i : Instr) (s : State) (f : State → α) : Option α := (nextOf (exec i s)).map f

/-- A state vector of listed words. -/
def words (ws : List Word) : Block := Vector.ofFn fun i => ws.getD i 0

/-- KEY0..KEY7 holding the bytes 00..1f (95 V2.1). -/
def ascendingKey : Vector Word 8 :=
  #v[0x03020100, 0x07060504, 0x0b0a0908, 0x0f0e0d0c, 0x13121110, 0x17161514, 0x1b1a1918, 0x1f1e1d1c]

/-- 95 V3 step 1's block. -/
def rfcBlock : Block := words
  [0x61707865, 0x3320646e, 0x79622d32, 0x6b206574, 0x03020100, 0x07060504, 0x0b0a0908, 0x0f0e0d0c,
   0x13121110, 0x17161514, 0x1b1a1918, 0x1f1e1d1c, 0x00000001, 0x09000000, 0x4a000000, 0x00000000]

/-- Key 00..1f and 95 V2.1's first nonce in the registers, no template yet. -/
def keyed : State := { State.reset with key := ascendingKey, nonce := #v[0x09000000, 0x4a000000, 0] }

/-- `keyed` after INIT (95 V2.1, first row). -/
def templated : State := { keyed with tmpl := rfcBlock.set 12 0, status := Status.reset.built .ietf true }

/-- `templated` with the start counter taken from CTR_HI and CTR_LO. -/
def overridden (hi lo : Word) : State := { templated with cfg := 0x0C201402, ctrHi := hi, ctrLo := lo }

/-- `overridden` under the DJB dialect. -/
def djbOverridden (hi lo : Word) : State :=
  { overridden hi lo with
    cfg := 0x08201403, status := Status.reset.built .djb true
    tmpl := ((rfcBlock.set 12 0).set 13 0).set 14 0x03020100 |>.set 15 0x07060504 }

/-- X = (0, 1, ..., 15) (95 V7). -/
def counting : State := { State.reset with x := Vector.ofFn fun i => BitVec.ofNat 32 i }

/-- The word `w` in flight after reset. -/
def flight (w : Word) : State := State.reset.issue w

/-- Reset's state with one turn to come. -/
def turned (t : Turn) : State := { State.reset with schedule := [.turn t] }

/-! ### Decoding (95 V10, V1.3) -/

theorem test_decode_init : decode 0x00000001 = .command .init := by decide
theorem test_decode_ldctr : decode 0x00000002 = .command .ldctr := by decide
theorem test_decode_qr : decode 0x00C84003 = .command (.qr 0 4 8 12) := by decide
theorem test_decode_qr_fields_apart : decode 0x00E94303 = .command (.qr 3 4 9 14) := by decide
theorem test_decode_qr_top : decode 0x00FFFF03 = .command (.qr 15 15 15 15) := by decide
theorem test_decode_colr : decode 0x00000004 = .command .colr := by decide
theorem test_decode_diagr : decode 0x00000005 = .command .diagr := by decide
theorem test_decode_ffwd : decode 0x00000006 = .command .ffwd := by decide
theorem test_decode_hash : decode 0x00000007 = .command .hash := by decide
theorem test_decode_crypt : decode 0x00000008 = .command .crypt := by decide
theorem test_decode_op_0 : decode 0x00000000 = .illegal .unknownOp := by decide
theorem test_decode_op_9 : decode 0x00000009 = .illegal .unknownOp := by decide
theorem test_decode_init_bit_4 : decode 0x00000011 = .illegal .reservedBits := by decide
theorem test_decode_qr_bit_4 : decode 0x00000013 = .illegal .reservedBits := by decide
theorem test_decode_qr_bit_24 : decode 0x01000003 = .illegal .reservedBits := by decide
theorem test_decode_crypt_bit_31 : decode 0x80000008 = .illegal .reservedBits := by decide
theorem test_encode_qr : encode (.qr 2 7 8 13) = 0x00D87203 := by decide
theorem test_table_word : decodeTableWord 32 0x00321003 = some (.qr 0 1 2 3) := by decide

/-! ### Well-formedness: one ill-formed term for each check (R9, R114) -/

theorem test_params_reference_wf : Params.reference.wf := by decide
theorem test_params_smallest_wf : ({ base := 7, msgBytes := 64 } : Params).wf := by decide
theorem test_params_largest_wf : ({ base := 7, msgBytes := 0xF000 } : Params).wf := by decide
theorem test_params_not_multiple_of_4 : ¬ ({ base := 0, msgBytes := 66 } : Params).wf := by decide
theorem test_params_too_small : ¬ ({ base := 0, msgBytes := 60 } : Params).wf := by decide
theorem test_params_too_large : ¬ ({ base := 0, msgBytes := 0xF004 } : Params).wf := by decide
theorem test_illegal_op : IllegalWord 0x00000009 ∧ IllegalWord 0x0000000F ∧ IllegalWord 0 := by decide
theorem test_illegal_no_operand_bits : IllegalWord 0x00000011 ∧ IllegalWord 0x80000008 := by decide
theorem test_illegal_qr_bits : IllegalWord 0x00000083 ∧ IllegalWord 0x01000003 := by decide
theorem test_legal_words : ¬ IllegalWord 0x00FFFF03 ∧ ¬ IllegalWord 0x00000008 := by decide

/-! ### Functions (95 V1.1, V1.2) -/

theorem test_rotl32 : rotl32 0x12345678 12 = 0x45678123 ∧ rotl32 0x80000001 7 = 0x000000c0 := by decide
theorem test_quarterround :
    quarterround 0x11111111 0x01020304 0x9b8d6f43 0x01234567 =
      (0xea2a92f4, 0xcb1cf8ce, 0x4581472e, 0x5881c4bb) := by decide

/-! ### Commands -/

/-- 95 V2.1, first row. -/
theorem test_init :
    ran .init keyed (fun t => (t.tmpl, t.status.word)) = some (rfcBlock.set 12 0, 0x00000016) := by decide

/-- 95 V2.3: both lengths wrong, the key is checked first. -/
theorem test_init_key_first :
    ran .init { State.reset with cfg := 0x05181400 } (fun t => t.status.word) = some 0x00000102 := by decide

/-- 95 V6.1: IETF, counter ffffffff. -/
theorem test_ldctr :
    ran .ldctr (overridden 0 0xffffffff) (fun t => (t.x, t.orig)) =
      some (rfcBlock.set 12 0xffffffff, rfcBlock.set 12 0xffffffff) := by decide

/-- 95 V6.1: DJB, counter 2^32: the low half in word 12. -/
theorem test_ldctr_djb_carry :
    ran .ldctr (djbOverridden 1 0) (fun t => (t.x[12], t.x[13], t.x[14], t.x[15])) =
      some (0, 1, 0x03020100, 0x07060504) := by decide

/-- 95 V1.3, first row. -/
theorem test_qr :
    ran (.qr 0 1 2 3) { State.reset with x := words [0x11111111, 0x01020304, 0x9b8d6f43, 0x01234567] } (fun t => t.x) =
      some (words [0xea2a92f4, 0xcb1cf8ce, 0x4581472e, 0x5881c4bb]) := by decide

/-- 95 V1.3, last row: equal indices, the last write wins. -/
theorem test_qr_equal_indices :
    ran (.qr 0 1 1 0) { State.reset with x := words [0x11111111, 0x01020304] } (fun t => t.x) =
      some (words [0x67378757, 0x6d3d8d5d]) := by decide

/-- 95 V7. -/
theorem test_colr :
    ran .colr counting (fun t => t.x) = some (words
      [0x8000c004, 0xb000c006, 0x6000c008, 0x5000c00a, 0x64624444, 0xe5e35cdd, 0x63643533, 0xe2e52daa,
       0x08c80488, 0x0bcb06b9, 0x06c6086a, 0x05c50a5b, 0x08c00480, 0x0bc006b0, 0x06c00860, 0x05c00a50]) := by
  decide

/-- 95 V7. -/
theorem test_diagr :
    ran .diagr counting (fun t => t.x) = some (words
      [0xa000f005, 0xb000d007, 0x4000f009, 0x9000d007, 0xecebcccc, 0x7d7ad555, 0xedebdddd, 0x7a7ca422,
       0x04f40948, 0x09d90799, 0x0afa05aa, 0x0bdb07bb, 0x0bd007b0, 0x04f00940, 0x09d00790, 0x0af005a0]) := by
  decide

/-- 95 V8.1: directly after LDCTR each word doubles. -/
theorem test_ffwd :
    ran .ffwd { State.reset with x := rfcBlock, orig := rfcBlock } (fun t => t.x) = some (words
      [0xc2e0f0ca, 0x6640c8dc, 0xf2c45a64, 0xd640cae8, 0x06040200, 0x0e0c0a08, 0x16141210, 0x1e1c1a18,
       0x26242220, 0x2e2c2a28, 0x36343230, 0x3e3c3a38, 0x00000002, 0x12000000, 0x94000000, 0x00000000]) := by
  decide

/-- 95 V7: HASH with ROUNDS = 2. -/
theorem test_hash :
    ran .hash { counting with cfg := 0x0C200200 } (fun t => (t.x, t.orig)) = some (words
      [0xa9295c6a, 0xb471be7b, 0x38e65ec6, 0x74348b8a, 0xf1ad76ca, 0x7b446280, 0x946682b6, 0xf12f4917,
       0xd7e22f88, 0x3232dddd, 0xb5b3b757, 0xc024044f, 0xc8a5de51, 0xe417e1e0, 0x1a392486, 0x983c4ece],
      counting.x) := by
  decide

/-- 95 V8.3: an odd round count. -/
theorem test_hash_odd_rounds :
    ran .hash { counting with cfg := 0x0C20FF00 } (fun t => (t.status.word, t.x)) = some (0x00000402, counting.x) := by
  decide

/-- 95 V4: the first plaintext byte "L" becomes 6e (its nonce, 20 rounds, counter 1). -/
theorem test_crypt :
    ran .crypt { templated with
      tmpl := (rfcBlock.set 12 0).set 13 0, len := 1, msg := { cells := [(0, 0x4c)], epoch := 0 } }
      (fun t => t.msg.cells) = some [(0, 0x6e)] := by decide +kernel

/-- 95 V9: LengthOverrun before CounterOverflow. -/
theorem test_crypt_order :
    ran .crypt { overridden 1 0 with len := 5000 } (fun t => t.status.word) = some 0x00000716 := by decide

/-! ### The port and the step (95 V11) -/

/-- One step of a host's turn: the answer. -/
def answered (t : Turn) (s : State) : Option (Option Reply) :=
  (nextOf (step { s with schedule := [.turn t] })).map fun u => u.reply

theorem test_read_cfg_after_reset : answered (.read 0x000 .word) State.reset = some (some (.data 0x0C201400)) := by
  decide
theorem test_write_cfg_masks :
    (nextOf (step (turned (.write 0x000 .word 0xFFFFFFFF)))).map (fun t => t.cfg) = some 0x0F3FFF07 := by decide
theorem test_byte_read_of_register : answered (.read 0x180 .byte) State.reset = some (some .error) := by decide
theorem test_misaligned_read : answered (.read 0x182 .word) State.reset = some (some .error) := by decide
theorem test_byte_write_of_msg :
    (nextOf (step (turned (.write 0x1005 .byte 0xFFFFFFAB)))).map (fun t => t.msg.cells) = some [(5, 0xAB)] := by
  decide
theorem test_msg_is_little_endian :
    answered (.read 0x1004 .word) { State.reset with
      msg := { cells := [(4, 0x01), (5, 0xAB), (6, 0x02), (7, 0x03)], epoch := 0 } } =
      some (some (.data 0x0302AB01)) := by decide
theorem test_past_the_window : answered (.write 0x2000 .word 1) State.reset = some (some .unanswered) := by
  decide
theorem test_status_write_clears :
    (nextOf (step { turned (.write 0x008 .word 0x22) with
      status := { Status.reset with done := true, wovr := true, tvalid := true } })).map (fun t => t.status.word) =
      some 0x00000004 := by decide
theorem test_busy_write_dropped :
    (nextOf (step { flight 7 with schedule := [.turn (.write 0x184 .word 5)] })).map (fun t => (t.status.word, t.x)) =
      some (0x00000021, State.reset.x) := by decide
theorem test_step_runs_illegal_word :
    (nextOf (step (State.reset.withFetchWord 32 0x01000003))).map (fun t => t.status.word) = some 0x00000502 := by
  decide

/-! ### Host programs (R117, R118, 95 P6) -/

/-- A program's state: idle or with a command in flight, these lines to run, these slots to come. -/
def hosted (s : State) (lines : List HostLine) (slots : List Slot) : State :=
  { s.withProgram lines with schedule := slots }

theorem test_wait_repeats_while_busy :
    (nextOf (step (hosted (flight 7) [.wait] [.host]))).map (fun t => (t.program, t.reply)) =
      some ([.wait], some (.data 0x00000001)) := by decide
theorem test_wait_ends_when_idle :
    (nextOf (step (hosted State.reset [.wait, .r 0x180] [.host]))).map (fun t => t.program) = some [.r 0x180] := by decide
theorem test_dround_lines : Pseudo.lines .dround = [.cmd .colr, .wait, .cmd .diagr, .wait] := by decide

/-! ### Witnesses: states and operands that meet the obligations' hypotheses -/

theorem flight_inv (w : Word) : (flight w).Inv where
  params_wf := (by decide : State.reset.params.wf)
  cfg_reserved := (by decide : State.reset.cfg &&& cfgMask = State.reset.cfg)
  busy_pend := rfl
  busy_clear := fun _ => ⟨rfl, rfl⟩
  captured := fun _ h => by cases h; rfl
  msg_wf := (by decide : State.reset.msg.wf)
  msg_within := fun _ h => by cases h
  template := ⟨fun _ => ⟨rfl, rfl, rfl⟩, fun h => by cases h⟩

/-- The all-zero key and nonce's template, and registers that fit it. -/
def zeroTemplated : State := { State.reset with
  tmpl := buildTemplateState (List.replicate 16 0) (List.replicate 8 0) .djb
  status := Status.reset.built .djb false }

theorem zeroTemplated_inv : zeroTemplated.Inv where
  params_wf := by decide
  cfg_reserved := by decide
  busy_pend := rfl
  busy_clear := fun h => by cases h
  captured := fun _ h => by cases h
  msg_wf := by decide
  msg_within := fun _ h => by cases h
  template := ⟨fun h => (by cases h), fun _ => ⟨List.replicate 16 0, List.replicate 8 0, rfl, rfl, rfl⟩⟩

theorem exec_next (i : Instr) (s : State) : ∃ t, exec i s = .next t := by
  rw [exec_eq_complete, complete_eq_next]; exact ⟨_, rfl⟩

theorem test_witness_illegal_words :
    (flight 0x00000083).pend.isSome ∧ IllegalWord 0x00000083 ∧ (flight 0x00000000).pend.isSome ∧
      IllegalWord 0x00000000 ∧ IllegalWord 0x80000008 := by decide

theorem test_witness_command_word : decode 0x00D87203 = .command (.qr 2 7 8 13) := by decide

theorem test_witness_qr_word : (0x00FFFF03 : Word).toNat % 2 ^ 8 = 3 ∧ (0x00FFFF03 : Word).toNat / 2 ^ 24 = 0 := by decide

theorem test_witness_step :
    (flight 7).nextTurn = .engine ∧ (flight 7).pend = some ⟨7, State.reset.capture⟩ ∧ decode 7 = .command .hash := by
  decide

theorem test_witness_command_write :
    State.reset.status.busy = false ∧
      ({ State.reset with schedule := [.turn (.write 0x004 .word 0x00FFFF03), .turn .engine] }).schedule =
        .turn (.write (State.reset.params.base + 0x004) .word (encode (.qr 15 15 15 15))) :: .turn .engine :: [] := by decide

theorem test_witness_invariant_in_flight : ∃ s : State, s.Inv ∧ s.status.busy = true ∧ s.pend ≠ none :=
  ⟨flight 4, flight_inv 4, rfl, by decide⟩

theorem test_witness_invariant_step : ∃ s t : State, s.Inv ∧ step s = .next t ∧ s ≠ t :=
  ⟨flight 4, _, flight_inv 4, rfl, by decide⟩

theorem test_witness_reset_turn : (turned .reset).nextTurn = .reset := by decide

theorem test_witness_error : ∃ t, engineTurn (flight 0x13) = .next t ∧ t.status.err = some .illegalCommand :=
  ⟨_, rfl, rfl⟩

theorem test_witness_engine : (flight 1).pend ≠ none ∧ State.reset.pend = none := by decide

theorem test_witness_transactions :
    ∀ t ∈ [Turn.read 0x180 .word, .write 0x184 .word 5, .write 0x1FFF .byte 1], t.isTransaction = true := by decide

/-- BUSY set by an issue and cleared by a completion. -/
theorem test_witness_busy_changes :
    (∃ t, step (turned (.write 0x004 .word 8)) = .next t ∧ t.status.busy = true) ∧
    (∃ t, step (flight 8) = .next t ∧ t.status.busy = false) ∧
    (∃ t, step { flight 8 with schedule := [.turn .reset] } = .next t ∧ t.status.busy = false) :=
  ⟨⟨_, rfl, rfl⟩, ⟨_, rfl, rfl⟩, ⟨_, rfl, rfl⟩⟩

/-- DONE set by a completion, and a write that clears it. -/
theorem test_witness_done :
    (∃ t, step (flight 5) = .next t ∧ (flight 5).status.done = false ∧ t.status.done = true) ∧
    State.reset.status.busy = false ∧ (0x00000002 : Word).getLsbD 1 = true :=
  ⟨⟨_, rfl, rfl, rfl⟩, rfl, rfl⟩

theorem legal_register_end : LegalAccess Params.reference 0xFFC .word := .inl ⟨0xFFC, by decide⟩
theorem legal_message_end : LegalAccess Params.reference 0x1FFF .byte := .inr ⟨4095, by decide⟩
theorem legal_message_start : LegalAccess Params.reference 0x1000 .word := .inr ⟨0, by decide⟩

/-- WOVR set by a dropped write (register region and window), and cleared by a STATUS write while idle or by reset. -/
theorem test_witness_wovr :
    (∃ t, step { flight 5 with schedule := [.turn (.write 0xFFC .word 0)] } = .next t ∧ t.status.wovr = true) ∧
    (∃ t, step { flight 5 with schedule := [.turn (.write 0x1FFF .byte 0)] } = .next t ∧ t.status.wovr = true) ∧
    (∃ t, step { turned (.write 0x008 .word 0x20) with status := { Status.reset with wovr := true } } = .next t ∧
      t.status.wovr = false) ∧
    (∃ t, step { turned .reset with status := { Status.reset with wovr := true } } = .next t ∧ t.status.wovr = false) :=
  ⟨⟨_, rfl, rfl⟩, ⟨_, rfl, rfl⟩, ⟨_, rfl, rfl⟩, ⟨_, rfl, rfl⟩⟩

/-- ERR cleared by an issue, written by a completion, cleared by reset. -/
theorem test_witness_err :
    (∃ t, step { turned (.write 0x004 .word 8) with status := { Status.reset with err := some .counterOverflow } } =
      .next t ∧ t.status.err = none) ∧
    (∃ t, step (flight 8) = .next t ∧ t.status.err = some .templateNotBuilt) ∧
    (∃ t, step { turned .reset with status := { Status.reset with err := some .lengthOverrun } } = .next t ∧
      t.status.err = none) :=
  ⟨⟨_, rfl, rfl⟩, ⟨_, rfl, rfl⟩, ⟨_, rfl, rfl⟩⟩

/-- A template written by INIT, and one dropped by reset. -/
theorem test_witness_template_changes :
    (∃ t, step (flight 1) = .next t ∧ t.status.tvalid ≠ (flight 1).status.tvalid) ∧
    (∃ t, step { zeroTemplated with schedule := [.turn .reset] } = .next t ∧ t.status.tvalid ≠ zeroTemplated.status.tvalid) :=
  ⟨⟨_, rfl, by decide⟩, ⟨_, rfl, by decide⟩⟩

theorem test_witness_narrow_access :
    Params.reference.wf ∧ (0xFFF < 0x1000 ∧ Width.byte ≠ .word) ∧ (0x182 < 0x1000 ∧ 0x182 % 4 ≠ 0) ∧
      (0x000 < 0x1000 ∧ Width.half ≠ .word) := by decide

theorem test_witness_message_window :
    State.reset.status.busy = false ∧ 4095 + Width.byte.bytes ≤ State.reset.params.msgBytes ∧ 4095 % Width.byte.bytes = 0 ∧
      4092 + Width.word.bytes ≤ State.reset.params.msgBytes ∧ 4092 % Width.word.bytes = 0 ∧
      4093 + Width.half.bytes ≤ State.reset.params.msgBytes ∧ 4093 % Width.half.bytes ≠ 0 := by decide

theorem test_witness_write_in_flight :
    (flight 8).status.busy = true ∧ LegalAccess (flight 8).params 0xFFC .word ∧
      LegalAccess (flight 8).params 0x1FFF .byte ∧ LegalAccess (flight 8).params 0x1000 .word :=
  ⟨rfl, legal_register_end, legal_message_end, legal_message_start⟩

/-- Reads at the ends of each range, idle and in flight. -/
theorem test_witness_port_reads :
    answered (.read 0x03C .word) keyed = some (some (.data 0x1f1e1d1c)) ∧
    answered (.read 0x048 .word) keyed = some (some (.data 0)) ∧
    answered (.read 0x018 .word) keyed = some (some (.data 0)) ∧
    answered (.read 0x0FC .word) keyed = some (some (.data 0)) ∧
    answered (.read 0xFFC .word) keyed = some (some (.data 0)) ∧
    answered (.read 0x1BC .word) counting = some (some (.data 15)) ∧
    (State.reset.status.busy = false ∧ (flight 8).status.busy = true) := by decide

/-- In flight the ends of TMPL, ORIG, X are free reads, and so is MSG's last byte. -/
theorem test_witness_busy_reads :
    answered (.read 0x100 .word) (flight 8) = some (some (.data (Config.anyRead 1))) ∧
    answered (.read 0x1BC .word) (flight 8) = some (some (.data (Config.anyRead 1))) ∧
    answered (.read 0x1FFF .byte) (flight 8) = some (some (.data (Config.anyRead 1 &&& 0xFF))) :=
  ⟨rfl, rfl, rfl⟩

theorem test_witness_idle_writes :
    State.reset.status.busy = false ∧ (0x04C ≤ 0x17C ∧ 0x17C < 0x180 ∧ 0x17C % 4 = 0) ∧
      (0x1C0 ≤ 0xFFC ∧ 0xFFC < 0x1000 ∧ 0xFFC % 4 = 0) ∧ 4092 + Width.word.bytes ≤ State.reset.params.msgBytes := by decide

/-- One byte below the window and one past its end. -/
theorem test_witness_unaddressed :
    0x7FFF < ({ base := 0x8000, msgBytes := 4096 } : Params).base ∧
      State.reset.params.base + 0x1000 + State.reset.params.msgBytes < 0x1FFE + Width.word.bytes := by decide

theorem test_witness_rotations : (1 ≤ 1 ∧ 1 ≤ 31) ∧ (1 ≤ 31 ∧ 31 ≤ 31) := by decide

theorem test_witness_round_orders : columns.reverse.Perm columns ∧ diagonals.reverse.Perm diagonals :=
  ⟨List.reverse_perm _, List.reverse_perm _⟩

theorem test_witness_built_template :
    zeroTemplated.Inv ∧ zeroTemplated.status.tvalid = true ∧ zeroTemplated.status.tdialect = .djb ∧
      zeroTemplated.status.tkey32 = false := ⟨zeroTemplated_inv, rfl, rfl, rfl⟩

/-- Two chunks, the second on the last counter IETF has. -/
theorem test_witness_chunks :
    (List.replicate 64 (0 : Byte)).length % 64 = 0 ∧
    (∃ c, encryptOrDecrypt (List.replicate 64 0) rfcBlock 0xFFFFFFFE 20 .ietf = .ok c) ∧
    (∃ c, encryptOrDecrypt [0x4c] rfcBlock (0xFFFFFFFE + (List.replicate 64 (0 : Byte)).length / 64) 20 .ietf = .ok c) :=
  ⟨by decide, ⟨_, rfl⟩, ⟨_, rfl⟩⟩

/-- INIT's three clauses: legal lengths of both dialects and key sizes, a key length of 63, a nonce length of 8. -/
theorem test_witness_init :
    ((0x0C201400 : Word).toNat / 2 ^ 16 % 2 ^ 6 = 32 ∧ (0x0C201400 : Word).toNat / 2 ^ 24 % 2 ^ 4 = 12) ∧
    ((0x08101401 : Word).toNat / 2 ^ 16 % 2 ^ 6 = 16 ∧ (0x08101401 : Word).toNat / 2 ^ 24 % 2 ^ 4 = 8) ∧
    (0x0C3F1400 : Word).toNat / 2 ^ 16 % 2 ^ 6 = 63 ∧ (0x08201400 : Word).toNat / 2 ^ 24 % 2 ^ 4 = 8 := by decide

/-- DJB, 16-byte keys, that differ only in KEY4 and NONCE2. -/
theorem test_witness_unused_registers :
    let s := { State.reset with cfg := 0x08101401 }
    let s' := { s with key := s.key.set 4 1, nonce := s.nonce.set 2 1 }
    (∃ t, exec .init s = .next t ∧ t.status.err = none) ∧ (∃ t, exec .init s' = .next t) ∧
      s.operands.cfg = s'.operands.cfg ∧
      (∀ n : Fin 8, (n.val < 4 ∨ s.operands.cfg.toNat / 2 ^ 16 % 2 ^ 6 = 32) → s.operands.key[n] = s'.operands.key[n]) ∧
      (∀ n : Fin 3, (n.val < 2 ∨ s.operands.cfg.getLsbD 0 = false) → s.operands.nonce[n] = s'.operands.nonce[n]) :=
  ⟨⟨_, rfl, rfl⟩, ⟨_, rfl⟩, rfl, by decide, by decide⟩

/-- LDCTR's three clauses: the last counter of each dialect, the initial counter, no template, one counter too wide. -/
theorem test_witness_ldctr :
    (StartCounterIs (overridden 0 0xffffffff).operands 0xffffffff ∧ 0xffffffff < counterLimit .ietf) ∧
    (StartCounterIs (djbOverridden 0xffffffff 0xffffffff).operands (2 ^ 64 - 1) ∧ 2 ^ 64 - 1 < counterLimit .djb) ∧
    StartCounterIs templated.operands 1 ∧ State.reset.operands.tvalid = false ∧
    (overridden 1 0).operands.tvalid = true ∧ StartCounterIs (overridden 1 0).operands (2 ^ 32) ∧
      counterLimit .ietf ≤ 2 ^ 32 := by
  simp only [StartCounterIs]; decide

theorem test_witness_hash_rounds :
    ((0x0C200200 : Word).toNat / 2 ^ 8 % 2 ^ 8 = 2) ∧ (0x0C20FE00 : Word).toNat / 2 ^ 8 % 2 ^ 8 = 254 ∧
    (0x0C20FF00 : Word).toNat / 2 ^ 8 % 2 ^ 8 = 255 ∧ (0x0C200000 : Word).toNat / 2 ^ 8 % 2 ^ 8 = 0 := by decide

/-- CRYPT: 64 bytes on the last counter of IETF; and the empty message on a counter too wide. -/
theorem test_witness_crypt :
    (let o := { overridden 0 0xffffffff with len := 64 }.operands
     StartCounterIs o 0xffffffff ∧ o.tvalid = true ∧ o.cfg.toNat / 2 ^ 8 % 2 ^ 8 = 20 ∧ o.len.toNat ≤ 4096 ∧
       0xffffffff + (o.len.toNat - 1) / 64 < counterLimit o.tdialect) ∧
    (let o := (overridden 1 0).operands
     StartCounterIs o (2 ^ 32) ∧ o.tvalid = true ∧ o.len.toNat = 0) := by
  simp only [StartCounterIs]; decide

/-- CRYPT's errors: a message of 4097 bytes, and 65 bytes on the last counter. -/
theorem test_witness_crypt_errors :
    (State.reset.operands.tvalid = false ∧ StartCounterIs State.reset.operands 1) ∧
    State.reset.params.msgBytes < { templated with len := 4097 }.operands.len.toNat ∧
    ({ templated with cfg := 0x0C200300 }.operands.cfg.toNat / 2 ^ 8 % 2 ^ 8) % 2 = 1 ∧
    (let o := { overridden 0 0xffffffff with len := 65 }.operands
     StartCounterIs o 0xffffffff ∧ counterLimit o.tdialect ≤ 0xffffffff + (o.len.toNat - 1) / 64) := by
  simp only [StartCounterIs]; decide

theorem test_witness_encrypt_or_decrypt :
    let o := { templated with len := 4096 }.operands
    o.tvalid = true ∧ roundsLegal (cfgRounds o.cfg) = true ∧ o.len.toNat ≤ State.reset.params.msgBytes := by decide

theorem test_witness_crypt_twice :
    ∃ s t u : State, s.operands = s.capture ∧ s.len ≠ 0 ∧ exec .crypt s = .next t ∧ exec .crypt t = .next u := by
  obtain ⟨t, ht⟩ := exec_next .crypt { templated with len := 65 }
  obtain ⟨u, hu⟩ := exec_next .crypt t
  exact ⟨_, t, u, rfl, by decide, ht, hu⟩

theorem test_witness_single_steps :
    templated.operands.tvalid = true ∧ templated.operands.startCounter < 2 ^ templated.operands.tdialect.counterBits ∧
      roundsLegal (cfgRounds templated.cfg) = true := by decide

/-- A line of each kind at a slot of the host, `WAIT` busy and idle. -/
theorem test_witness_host_lines :
    (hosted State.reset [.wh 0x1070 0x2e74] [.host]).program = .wh 0x1070 0x2e74 :: [] ∧
    (hosted State.reset [.cmd .init, .wait] [.host, .host]).schedule = .host :: [.host] ∧
    (hosted (flight 7) [.wait] [.host]).status.busy = true ∧ (hosted State.reset [.wait] [.host]).status.busy = false := by
  decide

/-- `WAIT` with no poll and with two before the engine moves. -/
theorem test_witness_wait :
    (let s := hosted (flight 8) [.wait] [.turn .engine, .host]
     s.status.busy = true ∧ s.pend ≠ none ∧ s.schedule = List.replicate 0 .host ++ .turn .engine :: .host :: []) ∧
    (let s := hosted (flight 8) [.wait] [.host, .host, .turn .engine, .host]
     s.program = .wait :: [] ∧ s.schedule = List.replicate 2 .host ++ .turn .engine :: .host :: []) := by decide

/-- 95 P6's lines after its first, under both orders. -/
theorem test_witness_either_order :
    let s := hosted State.reset [.cmd .hash, .w 0x184 5, .wait] [.host, .host, .turn .engine, .host]
    let s' := hosted State.reset [.cmd .hash, .w 0x184 5, .wait] [.host, .turn .engine, .host, .host]
    s.status.busy = false ∧ s.program = .cmd .hash :: .w (0x180 + 4 * (1 : Fin 16)) 5 :: .wait :: [] ∧
      s'.program = s.program ∧ s.schedule = [.host, .host, .turn .engine, .host] ∧
      s'.schedule = [.host, .turn .engine, .host, .host] := by decide

theorem test_witness_frames (i : Instr) : ∃ t, exec i templated = .next t := exec_next i templated

end Sys2Proof.Machine
end

section
/-! SUPPORT. The rules of a step that the statements on the state rest on: what each command's run writes when it
succeeds, what a step can do, and how the turn of a given agent runs. -/

namespace Sys2Proof.Machine

/-! ### The runs of the commands, inverted -/

/-- R133: INIT succeeds exactly on a legal key length with the dialect's nonce length. -/
theorem runInit_eq_ok_iff (o : Operands) (s t : State) : runInit o s = .ok t ↔
    (cfgKeyLen o.cfg = 16 ∨ cfgKeyLen o.cfg = 32) ∧ cfgNonceLen o.cfg = (cfgDialect o.cfg).nonceLen ∧
    t = { s with
      tmpl := buildTemplateState o.keyBytes o.nonceBytes (cfgDialect o.cfg)
      status := s.status.built (cfgDialect o.cfg) (cfgKeyLen o.cfg == 32) } := by
  unfold runInit
  split
  · next hkey => simp only [reduceCtorEq, false_iff]; tauto
  · next hkey =>
    split
    · next hnonce => simp only [reduceCtorEq, false_iff]; tauto
    · next hnonce =>
      rw [Except.ok.injEq]
      constructor
      · rintro rfl; exact ⟨by tauto, by tauto, rfl⟩
      · rintro ⟨-, -, rfl⟩; rfl

/-- R137: a successful LDCTR writes X and ORIG. -/
theorem runLdctr_ok_frame (o : Operands) (s t : State) (h : runLdctr o s = .ok t) :
    t = { s with x := t.x, orig := t.orig } := by
  unfold runLdctr at h
  split at h
  · cases h
  · split at h <;> cases h
    rfl

/-- R172: a successful HASH writes X and ORIG. -/
theorem runHash_ok_frame (o : Operands) (s t : State) (h : runHash o s = .ok t) :
    t = { s with x := t.x, orig := t.orig } := by
  unfold runHash at h
  split at h <;> cases h
  rfl

/-- R182, R202: a CRYPT that succeeds has a message that fits in the buffer, and its writes are its loop's. -/
theorem runCrypt_ok_inv (o : Operands) (s t : State) (h : runCrypt o s = .ok t) :
    o.len.toNat ≤ s.params.msgBytes ∧
    ∃ w, w = cryptBlocks o.tmpl o.tdialect (cfgRounds o.cfg) o.startCounter o.len.toNat
        (blocksNeeded o.len.toNat) 0 { orig := s.orig, x := s.x, msg := s.msg } ∧
      t = { s with orig := w.orig, x := w.x, msg := w.msg } := by
  simp only [runCrypt] at h
  split at h; · cases h
  split at h; · cases h
  split at h; · cases h
  next hfits =>
  split at h; · cases h
  cases h
  exact ⟨Nat.le_of_not_lt hfits, _, rfl, rfl⟩

/-- R55's table of writes, as what a successful run leaves to the commands outside each row: only INIT writes TMPL and
STATUS.T*, only LDCTR, HASH and CRYPT write ORIG, INIT does not write X, only CRYPT writes MSG. -/
theorem runOf_ok_writes (i : Instr) (o : Operands) (s t : State) (h : runOf i o s = .ok t) :
    (i ≠ .init → t.tmpl = s.tmpl ∧ t.status = s.status) ∧
    (i ≠ .ldctr → i ≠ .hash → i ≠ .crypt → t.orig = s.orig) ∧
    (i = .init → t.x = s.x) ∧
    (i ≠ .crypt → t.msg = s.msg) := by
  cases i with
  | init =>
    obtain ⟨-, -, rfl⟩ := (runInit_eq_ok_iff o s t).1 h
    simp
  | ldctr => rw [runLdctr_ok_frame o s t h]; simp
  | hash => rw [runHash_ok_frame o s t h]; simp
  | crypt =>
    obtain ⟨-, w, -, rfl⟩ := runCrypt_ok_inv o s t h
    simp
  | qr qa qb qc qd => cases h; simp
  | colr => cases h; simp
  | diagr => cases h; simp
  | ffwd => cases h; simp

/-- R203, R201: a command answers its run's writes with code 0, or its error and no writes. -/
theorem exec_cases (i : Instr) (s t : State) (h : exec i s = .next t) :
    (∃ u, runOf i s.operands s = .ok u ∧ t = u.completed none) ∨
    (∃ e, runOf i s.operands s = .error e ∧ t = s.completed (some e)) := by
  rw [exec_eq_complete, complete_eq_next, Host.Outcome.next.injEq] at h
  cases hr : runOf i s.operands s with
  | ok u => rw [hr] at h; exact .inl ⟨u, rfl, h.symm⟩
  | error e => rw [hr] at h; exact .inr ⟨e, rfl, h.symm⟩

/-! ### What a step can do -/

/-- Everything one step from `s` can do, by what CORE takes of the turn (R5, R230). -/
inductive StepCase (s : State) : State → Prop
  /-- CORE's state stays: a read, a write CORE refuses or is not addressed by, or the engine with nothing in flight. -/
  | quiet (r : Option Reply) (d : Nat) (hidle : s.nextTurn = .engine → s.pend = none) :
      StepCase s { s.afterTurn with reply := r, draws := d }
  /-- The command in flight completes with its writes. -/
  | success (p : Pending) (i : Instr) (u : State) (hturn : s.nextTurn = .engine) (hpend : s.pend = some p)
      (hword : decode p.word = .command i) (hrun : runOf i p.operands s.afterTurn = .ok u) :
      StepCase s (u.completed none)
  /-- The command in flight completes with an error. -/
  | error (p : Pending) (e : CmdError) (hturn : s.nextTurn = .engine) (hpend : s.pend = some p) :
      StepCase s (s.afterTurn.completed (some e))
  /-- A legal write to a register while idle. -/
  | register (off : Nat) (v : Word) (hturn : s.nextTurn = .write (s.params.base + off) .word v)
      (hbusy : s.status.busy = false) :
      StepCase s ((s.afterTurn.writeReg v (Reg.ofOffset off)).answer .written)
  /-- A legal write to the MSG window while idle. -/
  | message (a : Nat) (n : Width) (v : Word) (hturn : s.nextTurn = .write (s.params.base + 0x1000 + a) n v)
      (hbusy : s.status.busy = false) (hfits : a + n.bytes ≤ s.params.msgBytes) :
      StepCase s ((s.afterTurn.writeMsg a n v).answer .written)
  /-- A legal write in flight. -/
  | dropped (addr : Nat) (n : Width) (v : Word) (hturn : s.nextTurn = .write addr n v)
      (hlegal : LegalAccess s.params addr n) (hbusy : s.status.busy = true) :
      StepCase s s.afterTurn.dropWrite
  /-- The reset action. -/
  | reset (hturn : s.nextTurn = .reset) : StepCase s s.afterTurn.resetAction

theorem stepCase_of_engineTurn (s t : State) (hturn : s.nextTurn = .engine)
    (h : engineTurn s.afterTurn = .next t) : StepCase s t := by
  obtain ⟨hpend, rfl⟩ | ⟨p, i, u, hpend, hword, hrun, rfl⟩ | ⟨p, e, hpend, rfl, -⟩ := engineTurn_cases _ _ h
  · exact .quiet s.reply s.draws fun _ => hpend
  · exact .success p i u hturn hpend hword hrun
  · exact .error p e hturn hpend

theorem stepCase_busWrite (s : State) (addr : Nat) (n : Width) (v : Word) (hturn : s.nextTurn = .write addr n v) :
    StepCase s (s.afterTurn.busWrite addr n v) := by
  obtain ⟨r, hbusy, ht, h⟩ | ⟨a, hbusy, ht, h⟩ | ⟨hbusy, hlegal, h⟩ | ⟨r, h⟩ := busWrite_cases s.afterTurn addr n v
  · obtain ⟨off, rfl, -, -, rfl, rfl⟩ := target_eq_register _ _ _ _ ht
    rw [h]; exact .register off v hturn hbusy
  · obtain ⟨rfl, -, hfits⟩ := target_eq_message _ _ _ _ ht
    rw [h]; exact .message a n v hturn hbusy hfits
  · rw [h]; exact .dropped addr n v hturn hlegal hbusy
  · rw [h]; exact .quiet (some r) s.draws (by simp [hturn])

theorem step_cases (s t : State) (h : step s = .next t) : StepCase s t := by
  unfold step at h
  cases hturn : s.nextTurn with
  | engine => rw [hturn] at h; exact stepCase_of_engineTurn s t hturn h
  | read addr n =>
    rw [hturn] at h; cases h
    obtain ⟨r, d, hread⟩ := busRead_frame s.afterTurn addr n
    rw [hread]; exact .quiet r d (by simp [hturn])
  | write addr n v => rw [hturn] at h; cases h; exact stepCase_busWrite s addr n v hturn
  | reset => rw [hturn] at h; cases h; exact .reset hturn

/-! ### The step of a given turn -/

theorem step_of_write (s t : State) (addr : Nat) (n : Width) (v : Word) (h : step s = .next t)
    (hturn : s.nextTurn = .write addr n v) : t = s.afterTurn.busWrite addr n v := by
  rw [step, hturn] at h; cases h; rfl

theorem step_of_reset (s t : State) (h : step s = .next t) (hturn : s.nextTurn = .reset) :
    t = s.afterTurn.resetAction := by
  rw [step, hturn] at h; cases h; rfl

/-- R87: a word written at an aligned offset of the register region while idle reaches its register. -/
theorem busWrite_register_idle (s : State) (off : Nat) (v : Word) (hoff : off < 0x1000) (h4 : off % 4 = 0)
    (hbusy : s.status.busy = false) :
    s.busWrite (s.params.base + off) .word v = (s.writeReg v (Reg.ofOffset off)).answer .written := by
  simp [State.busWrite, target_register s.params off hoff h4, hbusy]

/-- R110: the write of CMD while idle issues. -/
theorem step_of_cmd_write (s t : State) (w : Word) (h : step s = .next t)
    (hturn : s.nextTurn = .write (s.params.base + 0x004) .word w) (hbusy : s.status.busy = false) :
    t = (s.afterTurn.issue w).answer .written := by
  rw [step_of_write s t _ _ _ h hturn]
  exact busWrite_register_idle s.afterTurn 0x004 w (by omega) (by omega) hbusy

/-- R46: the write of STATUS while idle clears the flags it acknowledges. -/
theorem step_of_status_write (s t : State) (v : Word) (h : step s = .next t)
    (hturn : s.nextTurn = .write (s.params.base + 0x008) .word v) (hbusy : s.status.busy = false) :
    t = (s.afterTurn.writeReg v .status).answer .written := by
  rw [step_of_write s t _ _ _ h hturn]
  exact busWrite_register_idle s.afterTurn 0x008 v (by omega) (by omega) hbusy

/-- R86: a legal write in flight is dropped. -/
theorem busWrite_legal_busy (s : State) (addr : Nat) (n : Width) (v : Word) (hlegal : LegalAccess s.params addr n)
    (hbusy : s.status.busy = true) : s.busWrite addr n v = s.dropWrite := by
  obtain ⟨off, rfl, hoff, h4, rfl⟩ | ⟨a, rfl, ha, hfits⟩ := hlegal
  · simp [State.busWrite, target_register s.params off hoff h4, hbusy]
  · simp [State.busWrite, target_message s.params a n ha hfits, hbusy]

/-- R44, R87: of the register writes only that of STATUS reaches WOVR. -/
theorem writeReg_wovr (s : State) (v : Word) (r : Reg) :
    (s.writeReg v r).status.wovr = if r = .status then s.status.wovr && !v.getLsbD 5 else s.status.wovr := by
  cases r <;> rfl

/-- R44: no command writes WOVR. -/
theorem runOf_ok_wovr (i : Instr) (o : Operands) (s t : State) (h : runOf i o s = .ok t) :
    t.status.wovr = s.status.wovr := by
  rw [runOf_ok_frame i o s t h]

end Sys2Proof.Machine
end

section
/-! SUPPORT. The invariant, operation by operation, and its preservation by a step. -/

namespace Sys2Proof.Machine

/-- With nothing in flight the clauses on the command in flight hold by themselves. -/
theorem State.Inv.of_idle {t : State} (hpend : t.pend = none) (hbusy : t.status.busy = false) (hparams : t.params.wf)
    (hcfg : t.cfg &&& cfgMask = t.cfg) (hwf : t.msg.wf) (hwithin : t.msg.within t.params.msgBytes)
    (htmpl : t.TemplateOk) : t.Inv where
  params_wf := hparams
  cfg_reserved := hcfg
  busy_pend := by simp [hpend, hbusy]
  busy_clear := by simp [hbusy]
  captured := by simp [hpend]
  msg_wf := hwf
  msg_within := hwithin
  template := htmpl

section
variable {s : State} (hs : s.Inv)
include hs

theorem State.Inv.pend_of_idle (hbusy : s.status.busy = false) : s.pend = none := by
  simpa [hbusy] using hs.busy_pend

/-- The model's own fields have no part in the invariant. -/
theorem State.Inv.bookkeeping (r : Option Reply) (d : Nat) (lines : List HostLine) (slots : List Slot) :
    ({ s with reply := r, draws := d, program := lines, schedule := slots } : State).Inv :=
  { params_wf := hs.params_wf
    cfg_reserved := hs.cfg_reserved
    busy_pend := hs.busy_pend
    busy_clear := hs.busy_clear
    captured := hs.captured
    msg_wf := hs.msg_wf
    msg_within := hs.msg_within
    template := hs.template }

theorem State.Inv.afterTurn : s.afterTurn.Inv := hs.bookkeeping s.reply s.draws _ _

theorem State.Inv.answer (r : Reply) : (s.answer r).Inv := hs.bookkeeping (some r) s.draws s.program s.schedule

theorem State.Inv.issue (w : Word) : (s.issue w).Inv where
  params_wf := hs.params_wf
  cfg_reserved := hs.cfg_reserved
  busy_pend := rfl
  busy_clear _ := ⟨rfl, rfl⟩
  captured := by rintro p ⟨rfl⟩; rfl
  msg_wf := hs.msg_wf
  msg_within := hs.msg_within
  template := hs.template

/-- R32, R87: CFG's reserved bits stay 0 at a register write. -/
theorem State.Inv.writeReg_cfg (v : Word) (r : Reg) : (s.writeReg v r).cfg &&& cfgMask = (s.writeReg v r).cfg := by
  cases r with
  | cfg => simp only [State.writeReg, BitVec.and_assoc, BitVec.and_self]
  | _ => exact hs.cfg_reserved

theorem State.Inv.writeReg (v : Word) (r : Reg) (hbusy : s.status.busy = false) : (s.writeReg v r).Inv := by
  have hpend := hs.pend_of_idle hbusy
  have hcfg := hs.writeReg_cfg v r
  cases r with
  | cmd => exact hs.issue v
  | _ => exact .of_idle hpend hbusy hs.params_wf hcfg hs.msg_wf hs.msg_within hs.template

theorem State.Inv.writeMsg (a : Nat) (n : Width) (v : Word) (hbusy : s.status.busy = false)
    (hfits : a + n.bytes ≤ s.params.msgBytes) : (s.writeMsg a n v).Inv :=
  .of_idle (hs.pend_of_idle hbusy) hbusy hs.params_wf hs.cfg_reserved (s.msg.writeLE_wf a n.bytes v hs.msg_wf)
    (s.msg.writeLE_within a n.bytes v _ hs.msg_within hfits) hs.template

theorem State.Inv.dropWrite : s.dropWrite.Inv where
  params_wf := hs.params_wf
  cfg_reserved := hs.cfg_reserved
  busy_pend := hs.busy_pend
  busy_clear := hs.busy_clear
  captured := hs.captured
  msg_wf := hs.msg_wf
  msg_within := hs.msg_within
  template := hs.template

theorem State.Inv.resetAction : s.resetAction.Inv :=
  .of_idle rfl rfl hs.params_wf (by decide : (0x0C201400 : Word) &&& cfgMask = 0x0C201400) List.Pairwise.nil
    (by rintro c ⟨⟩) ⟨fun _ => ⟨rfl, rfl, rfl⟩, by rintro ⟨⟩⟩

theorem State.Inv.completed (e : Option CmdError) : (s.completed e).Inv :=
  .of_idle rfl rfl hs.params_wf hs.cfg_reserved hs.msg_wf hs.msg_within hs.template

end

/-! ### A successful run -/

/-- R49, R37: a legal key length counts the key bytes. -/
theorem length_keyBytes (o : Operands) (h : cfgKeyLen o.cfg ≤ 32) : o.keyBytes.length = cfgKeyLen o.cfg := by
  simpa [Operands.keyBytes] using h

/-- R50, R38: a legal nonce length counts the nonce bytes. -/
theorem length_nonceBytes (o : Operands) (h : cfgNonceLen o.cfg ≤ 12) : o.nonceBytes.length = cfgNonceLen o.cfg := by
  simpa [Operands.nonceBytes] using h

theorem Dialect.nonceLen_le (d : Dialect) : d.nonceLen ≤ 12 := by cases d <;> decide

/-- R132, R133: what INIT leaves is the template of a key and a nonce of the latched lengths. -/
theorem templateOk_of_runInit (o : Operands) (s t : State) (h : runInit o s = .ok t) : t.TemplateOk := by
  obtain ⟨hkey, hnonce, rfl⟩ := (runInit_eq_ok_iff o s t).1 h
  refine ⟨by rintro ⟨⟩, fun _ => ⟨o.keyBytes, o.nonceBytes, ?_, ?_, rfl⟩⟩
  · rw [length_keyBytes o (by omega)]
    obtain hk | hk := hkey <;> simp [hk]
  · rw [length_nonceBytes o (hnonce ▸ Dialect.nonceLen_le _)]; exact hnonce

theorem templateOk_of_runOf (i : Instr) (o : Operands) (s t : State) (hs : s.TemplateOk) (h : runOf i o s = .ok t) :
    t.TemplateOk := by
  by_cases hi : i = .init
  · subst hi; exact templateOk_of_runInit o s t h
  · obtain ⟨htmpl, -⟩ := runOf_ok_writes i o s t h
    obtain ⟨ht, hstatus⟩ := htmpl hi
    rw [State.TemplateOk, ht, hstatus]; exact hs

/-- R90, R182: a successful run keeps MSG canonical and inside the buffer. -/
theorem msg_of_runOf (i : Instr) (o : Operands) (s t : State) (hwf : s.msg.wf) (hin : s.msg.within s.params.msgBytes)
    (h : runOf i o s = .ok t) : t.msg.wf ∧ t.msg.within s.params.msgBytes := by
  by_cases hi : i = .crypt
  · subst hi
    obtain ⟨hfits, w, rfl, rfl⟩ := runCrypt_ok_inv o s t h
    exact cryptBlocks_msg _ _ _ _ _ _ _ _ _ hwf hin hfits
  · obtain ⟨-, -, -, hmsg⟩ := runOf_ok_writes i o s t h
    rw [hmsg hi]; exact ⟨hwf, hin⟩

theorem State.Inv.completed_runOf (i : Instr) (o : Operands) (s t : State) (hs : s.Inv) (h : runOf i o s = .ok t) :
    (t.completed none).Inv := by
  obtain ⟨hwf, hin⟩ := msg_of_runOf i o s t hs.msg_wf hs.msg_within h
  have htmpl := templateOk_of_runOf i o s t hs.template h
  have hparams : t.params = s.params := by rw [runOf_ok_frame i o s t h]
  have hcfg : t.cfg = s.cfg := by rw [runOf_ok_frame i o s t h]
  exact .of_idle rfl rfl (hparams ▸ hs.params_wf) (hcfg ▸ hs.cfg_reserved) hwf (hparams ▸ hin) htmpl

/-- Settles O12: each case of a step is an operation that keeps the invariant. -/
theorem everyStepKeepsTheInvariant : Obligations.EveryStepKeepsTheInvariant := by
  intro s t hs h
  have ha := hs.afterTurn
  cases step_cases s t h with
  | quiet r d => exact ha.bookkeeping r d _ _
  | success p i u _ _ _ hrun => exact State.Inv.completed_runOf i p.operands _ u ha hrun
  | error p e => exact ha.completed (some e)
  | register off v _ hbusy => exact (ha.writeReg v _ hbusy).answer .written
  | message a n v _ hbusy hfits => exact (ha.writeMsg a n v hbusy hfits).answer .written
  | dropped => exact ha.dropWrite
  | reset => exact ha.resetAction

end Sys2Proof.Machine
end

section
/-! SUPPORT. STATUS and the template along a step: who changes BUSY, WOVR, ERR, TMPL and STATUS.T*. -/

namespace Sys2Proof.Machine

/-- Settles O17, by the cases of a step: only CMD's register write, a completion and reset touch BUSY. -/
theorem busyChangesOnlyOnIssueCompletionReset : Obligations.BusyChangesOnlyOnIssueCompletionReset := by
  intro s t h
  refine ⟨fun hne => ?changes, ?issue, fun hturn hpend => ?completion, fun hturn => ?reset⟩
  case changes =>
    cases step_cases s t h with
    | quiet | message | dropped => simp at hne
    | success _ _ _ hturn hpend | error _ _ hturn hpend => exact .inr ⟨rfl, .inl ⟨hturn, by simp [hpend]⟩⟩
    | register off v hturn =>
      by_cases hcmd : Reg.ofOffset off = .cmd
      · obtain rfl := reg_ofOffset_eq_cmd off hcmd
        exact .inl ⟨rfl, v, hturn⟩
      · simp [writeReg_busy, hcmd] at hne
    | reset hturn => exact .inr ⟨rfl, .inr hturn⟩
  case issue =>
    rintro hbusy ⟨w, hturn⟩
    rw [step_of_cmd_write s t w h hturn hbusy]; rfl
  case completion =>
    cases step_cases s t h with
    | quiet _ _ hidle => exact absurd (hidle hturn) hpend
    | success | error => rfl
    | register _ _ hother | message _ _ _ hother | dropped _ _ _ hother | reset hother => simp [hturn] at hother
  case reset => rw [step_of_reset s t h hturn]; rfl

/-- Settles O19, by the cases of a step: only a dropped write, STATUS's register write and reset touch WOVR. -/
theorem wovrRecordsDroppedWrites : Obligations.WovrRecordsDroppedWrites := by
  intro s t h
  refine ⟨?dropped, ?acked, fun hold hnew => ?sets, fun hold hnew => ?clears⟩
  case dropped =>
    rintro hbusy ⟨addr, n, v, hturn, hlegal⟩
    rw [step_of_write s t addr n v h hturn, busWrite_legal_busy s.afterTurn addr n v hlegal hbusy]; rfl
  case acked =>
    rintro hbusy ⟨v, hturn, hbit⟩
    rw [step_of_status_write s t v h hturn hbusy]
    simp [writeReg_wovr, hbit]
  case sets =>
    cases step_cases s t h with
    | quiet | error | message => simp [hold] at hnew
    | success p i u _ _ _ hrun => simp [runOf_ok_wovr _ _ _ _ hrun, hold] at hnew
    | register off v => simp [writeReg_wovr, hold] at hnew
    | dropped addr n v hturn hlegal hbusy => exact ⟨hbusy, addr, n, v, hturn, hlegal⟩
    | reset => cases hnew
  case clears =>
    cases step_cases s t h with
    | quiet | error | message | dropped => simp [hold] at hnew
    | success p i u _ _ _ hrun => simp [runOf_ok_wovr _ _ _ _ hrun, hold] at hnew
    | register off v hturn hbusy =>
      by_cases hstatus : Reg.ofOffset off = .status
      · obtain rfl := reg_ofOffset_eq_status off hstatus
        exact .inr ⟨hbusy, v, hturn, by simpa [writeReg_wovr, hstatus, hold] using hnew⟩
      · simp [writeReg_wovr, hstatus, hold] at hnew
    | reset hturn => exact .inl hturn

/-- Settles O20, by the cases of a step: only CMD's register write, a completion and reset touch ERR. -/
theorem errHoldsUntilTheNextIssueOrReset : Obligations.ErrHoldsUntilTheNextIssueOrReset := by
  intro s t h
  refine ⟨?issue, fun hne => ?changes⟩
  case issue =>
    rintro hbusy ⟨w, hturn⟩
    rw [step_of_cmd_write s t w h hturn hbusy]; rfl
  case changes =>
    cases step_cases s t h with
    | quiet | message | dropped => simp at hne
    | success _ _ _ hturn hpend | error _ _ hturn hpend => exact .inr (.inl ⟨hturn, by simp [hpend]⟩)
    | register off v hturn hbusy =>
      by_cases hcmd : Reg.ofOffset off = .cmd
      · obtain rfl := reg_ofOffset_eq_cmd off hcmd
        exact .inr (.inr ⟨hbusy, rfl, v, hturn⟩)
      · simp [writeReg_err, hcmd] at hne
    | reset hturn => exact .inl hturn

/-- R112: INIT's one word. -/
theorem word_of_decode_init (w : Word) (h : decode w = .command .init) : w = 0x00000001 := by
  simpa using decode_command_cases w .init h

/-- R51, R87: no register write reaches TMPL. -/
theorem writeReg_tmpl (s : State) (v : Word) (r : Reg) : (s.writeReg v r).tmpl = s.tmpl := by
  cases r <;> rfl

/-- Settles O21, by the cases of a step: what is no completion leaves the template, and so does every run but INIT's. -/
theorem onlyInitAndResetChangeTheTemplate : Obligations.OnlyInitAndResetChangeTheTemplate := by
  intro s t h hne
  cases step_cases s t h with
  | quiet | error | message | dropped => simp at hne
  | success p i u hturn hpend hword hrun =>
    by_cases hi : i = .init
    · subst hi
      obtain ⟨-, -, rfl⟩ := (runInit_eq_ok_iff _ _ _).1 hrun
      exact .inr ⟨hturn, p, hpend, word_of_decode_init p.word hword, rfl, rfl⟩
    · obtain ⟨htmpl, -⟩ := runOf_ok_writes _ _ _ _ hrun
      obtain ⟨ht, hstatus⟩ := htmpl hi
      simp [ht, hstatus] at hne
  | register off v =>
    obtain ⟨-, hvalid, hdialect, hkey⟩ := writeReg_frame s.afterTurn v (Reg.ofOffset off)
    simp [writeReg_tmpl, hvalid, hdialect, hkey] at hne
  | reset hturn => exact .inl hturn

end Sys2Proof.Machine
end

section
/-! SUPPORT. What the commands do not write, and what does not reach the template. -/

namespace Sys2Proof.Machine

/-- R49, R50: bytes below `len` of a file of registers depend on the registers that hold them alone. -/
theorem take_fileBytes_congr {n : Nat} (v w : Vector Word n) (len : Nat)
    (h : ∀ k : Fin n, 4 * k.val < len → v[k] = w[k]) : (fileBytes v).take len = (fileBytes w).take len := by
  apply List.ext_getElem?
  intro k
  by_cases hlen : k < len
  · rw [List.getElem?_take_of_lt hlen, List.getElem?_take_of_lt hlen]
    by_cases hk : k < 4 * n
    · have hword : v[k / 4] = w[k / 4] := h ⟨k / 4, by omega⟩ (show 4 * (k / 4) < len by omega)
      rw [getElem?_fileBytes v k hk, getElem?_fileBytes w k hk, hword]
    · rw [List.getElem?_eq_none (by simpa using hk), List.getElem?_eq_none (by simpa using hk)]
  · rw [List.getElem?_take_eq_none (by omega), List.getElem?_take_eq_none (by omega)]

/-- R133: an INIT that ends with code 0 was legal and leaves the template of its key and nonce bytes. -/
theorem exec_init_of_err_none (s t : State) (h : exec .init s = .next t) (herr : t.status.err = none) :
    (cfgKeyLen s.operands.cfg = 16 ∨ cfgKeyLen s.operands.cfg = 32) ∧
    cfgNonceLen s.operands.cfg = (cfgDialect s.operands.cfg).nonceLen ∧
    t.tmpl = buildTemplateState s.operands.keyBytes s.operands.nonceBytes (cfgDialect s.operands.cfg) := by
  obtain ⟨u, hrun, rfl⟩ | ⟨e, -, rfl⟩ := exec_cases _ _ _ h
  · obtain ⟨hkey, hnonce, rfl⟩ := (runInit_eq_ok_iff _ _ _).1 hrun
    exact ⟨hkey, hnonce, rfl⟩
  · cases herr

/-- R133: whether INIT succeeds is CFG's alone. -/
theorem exec_init_err_congr (s s' t t' : State) (h : exec .init s = .next t) (h' : exec .init s' = .next t')
    (hcfg : s.operands.cfg = s'.operands.cfg) (herr : t.status.err = none) : t'.status.err = none := by
  obtain ⟨hkey, hnonce, -⟩ := exec_init_of_err_none s t h herr
  have hrun := (runInit_eq_ok_iff s'.operands s' _).2 ⟨hcfg ▸ hkey, hcfg ▸ hnonce, rfl⟩
  obtain ⟨u, -, rfl⟩ | ⟨e, hfail, -⟩ := exec_cases _ _ _ h'
  · rfl
  · cases hrun.symm.trans hfail

/-- R49, R37: the key bytes of a legal CFG are those of KEY0..KEY3, and of all eight for KEYLEN 32. -/
theorem keyBytes_congr (o o' : Operands) (hcfg : o.cfg = o'.cfg) (hlen : cfgKeyLen o.cfg = 16 ∨ cfgKeyLen o.cfg = 32)
    (h : ∀ n : Fin 8, (n.val < 4 ∨ cfgKeyLen o.cfg = 32) → o.key[n] = o'.key[n]) : o.keyBytes = o'.keyBytes := by
  rw [Operands.keyBytes, Operands.keyBytes, ← hcfg]
  exact take_fileBytes_congr _ _ _ fun n hn => h n (by omega)

/-- R50, R38: the nonce bytes of a legal CFG are those of NONCE0 and NONCE1, and of NONCE2 for IETF. -/
theorem nonceBytes_congr (o o' : Operands) (hcfg : o.cfg = o'.cfg)
    (hlen : cfgNonceLen o.cfg = (cfgDialect o.cfg).nonceLen)
    (h : ∀ n : Fin 3, (n.val < 2 ∨ o.cfg.getLsbD 0 = false) → o.nonce[n] = o'.nonce[n]) :
    o.nonceBytes = o'.nonceBytes := by
  rw [Operands.nonceBytes, Operands.nonceBytes, ← hcfg]
  refine take_fileBytes_congr _ _ _ fun n hn => h n ?_
  rw [hlen, nonceLen_cfgDialect] at hn
  cases hd : o.cfg.getLsbD 0
  · exact .inr rfl
  · rw [hd, if_pos rfl] at hn
    exact .inl (by omega)

/-- Settles O38: the template is built from the key and nonce bytes alone, and those from the registers in use. -/
theorem unusedKeyAndNonceRegistersDoNotReachTheTemplate :
    Obligations.UnusedKeyAndNonceRegistersDoNotReachTheTemplate := by
  intro s s' t t' o o' h h' herr hcfg hkey hnonce
  obtain ⟨hkl, hnl, ht⟩ := exec_init_of_err_none s t h herr
  obtain ⟨-, -, ht'⟩ := exec_init_of_err_none s' t' h' (exec_init_err_congr s s' t t' h h' hcfg herr)
  rw [← cfgKeyLen_eq] at hkey
  rw [ht, ht', ← keyBytes_congr o o' hcfg hkl hkey, ← nonceBytes_congr o o' hcfg hnl hnonce, ← hcfg]

/-- R182: CRYPT writes no byte of MSG at LEN or above. -/
theorem read_of_runCrypt_ok (o : Operands) (s t : State) (h : runCrypt o s = .ok t) (a : Nat) (ha : o.len.toNat ≤ a) :
    t.msg.read a = s.msg.read a := by
  obtain ⟨-, w, rfl, rfl⟩ := runCrypt_ok_inv o s t h
  rw [read_cryptBlocks, if_neg (by omega)]

/-- Settles O51: an error writes the completion fields alone, a success what R55's table gives the command. -/
theorem commandsWriteOnlyTheirState : Obligations.CommandsWriteOnlyTheirState := by
  intro i s t h
  obtain ⟨u, hrun, rfl⟩ | ⟨e, -, rfl⟩ := exec_cases i s t h
  · obtain ⟨htmpl, horig, hx, hmsg⟩ := runOf_ok_writes i _ s u hrun
    refine ⟨?registers, fun hi => ?template, horig, hx, fun hi a => ?message, ?crypt⟩
    case registers => rw [runOf_ok_frame i _ s u hrun]; simp
    case template =>
      obtain ⟨ht, hstatus⟩ := htmpl hi
      simp [ht, hstatus]
    case message => rw [State.completed_msg, hmsg hi]
    case crypt => rintro rfl a ha; exact read_of_runCrypt_ok _ s u hrun a ha
  · simp

end Sys2Proof.Machine
end

section
/-! SUPPORT. STATUS's word, bit by bit (R40, R200). -/

namespace Sys2Proof.Machine

theorem getLsbD_flagBit (b : Bool) (i j : Nat) (hi : i < 32) : (flagBit b i).getLsbD j = (b && decide (j = i)) := by
  cases b
  · simp [flagBit]
  · rw [flagBit, if_pos rfl, ← BitVec.twoPow_eq, BitVec.getLsbD_twoPow]
    simp [hi, eq_comm]

/-- R40: each bit of the word is the flag placed there, or one of ERR's four. -/
theorem Status.getLsbD_word (f : Status) (j : Nat) (hj : j < 32) : f.word.getLsbD j =
    ((f.busy && decide (j = 0)) || (f.done && decide (j = 1)) || (f.tvalid && decide (j = 2)) ||
      (f.tdialect.code && decide (j = 3)) || (f.tkey32 && decide (j = 4)) || (f.wovr && decide (j = 5)) ||
      (decide (8 ≤ j) && f.errCode.getLsbD (j - 8))) := by
  have herr : (f.errCode.setWidth 32 <<< 8).getLsbD j = (decide (8 ≤ j) && f.errCode.getLsbD (j - 8)) := by
    rw [BitVec.getLsbD_shiftLeft, BitVec.getLsbD_setWidth]
    by_cases h8 : 8 ≤ j
    · simp [h8, hj, show j - 8 < 32 by omega]
    · simp [h8]
  simp only [Status.word, BitVec.getLsbD_or, herr, getLsbD_flagBit _ 0 j (by omega), getLsbD_flagBit _ 1 j (by omega),
    getLsbD_flagBit _ 2 j (by omega), getLsbD_flagBit _ 3 j (by omega), getLsbD_flagBit _ 4 j (by omega),
    getLsbD_flagBit _ 5 j (by omega)]

/-- R40: bits 11:8 are ERR. -/
theorem Status.extractLsb'_word_err (f : Status) : f.word.extractLsb' 8 4 = f.errCode := by
  ext i hi
  rw [BitVec.getElem_extractLsb', f.getLsbD_word (8 + i) (by omega)]
  simp [BitVec.getLsbD_eq_getElem hi, show ∀ k < 8, 8 + i ≠ k by omega]

/-- R40: bits 31:12 are reserved. -/
theorem Status.extractLsb'_word_high (f : Status) : f.word.extractLsb' 12 20 = 0 := by
  ext i hi
  rw [BitVec.getElem_extractLsb', f.getLsbD_word (12 + i) (by omega), f.errCode.getLsbD_of_ge (12 + i - 8) (by omega)]
  simp [show ∀ k < 12, 12 + i ≠ k by omega]

theorem Dialect.code_eq (d : Dialect) : d.code = decide (d = .djb) := by cases d <;> rfl

/-- Settles O16: the flags by the word's bits, ERR and the reserved bits above it as fields of the word. -/
theorem statusWordHasTheSpecLayout : Obligations.StatusWordHasTheSpecLayout := by
  intro f
  have herr : f.word.toNat / 2 ^ 8 % 16 = f.errCode.toNat := by
    rw [← f.extractLsb'_word_err, BitVec.extractLsb'_toNat, Nat.shiftRight_eq_div_pow]
  have hhigh : f.word.toNat / 2 ^ 12 = 0 := by
    have hzero : f.word.toNat / 2 ^ 12 % 2 ^ 20 = 0 := by
      rw [← Nat.shiftRight_eq_div_pow, ← BitVec.extractLsb'_toNat, f.extractLsb'_word_high]; rfl
    have hlt := f.word.isLt
    omega
  have hbit := f.getLsbD_word
  refine ⟨(hbit 0 (by decide)).trans ?_, (hbit 1 (by decide)).trans ?_, (hbit 2 (by decide)).trans ?_,
    (hbit 3 (by decide)).trans ?_, (hbit 4 (by decide)).trans ?_, (hbit 5 (by decide)).trans ?_, herr.trans ?codes,
    (hbit 6 (by decide)).trans ?_, (hbit 7 (by decide)).trans ?_, hhigh⟩
  case codes =>
    rw [Status.errCode]
    cases f.err with
    | none => rfl
    | some e => cases e <;> rfl
  all_goals simp [Dialect.code_eq]

end Sys2Proof.Machine
end

section
/-! SUPPORT. The bytes of words put together from bytes: what a little-endian read holds (R90), the byte swap (R93) and
the serialized block (R94). -/

namespace Sys2Proof.Machine

/-- R11: bit `i` of byte `j` is bit `8j + i` of the word. -/
theorem getElem_byteOf (w : Word) (j i : Nat) (hi : i < 8) : (byteOf w j)[i] = w.getLsbD (8 * j + i) :=
  BitVec.getElem_extractLsb' hi

/-- A word has no byte from byte 4 on. -/
theorem byteOf_eq_zero (w : Word) (k : Nat) (hk : 4 ≤ k) : byteOf w k = 0 := by
  ext i hi
  rw [getElem_byteOf, BitVec.getLsbD_of_ge w _ (by omega)]
  simp

/-- The bytes of a byte put below a word: that byte first, then the word's. -/
theorem byteOf_or_shiftLeft (b : Byte) (w : Word) (k : Nat) (hk : k < 4) :
    byteOf (b.setWidth 32 ||| w <<< 8) k = if k = 0 then b else byteOf w (k - 1) := by
  ext i hi
  rw [getElem_byteOf, BitVec.getLsbD_or, BitVec.getLsbD_setWidth, BitVec.getLsbD_shiftLeft]
  split
  · next h0 =>
    subst h0
    simp [hi, BitVec.getLsbD_eq_getElem, show i < 32 by omega]
  · next h0 =>
    rw [getElem_byteOf, BitVec.getLsbD_of_ge b _ (by omega), show 8 * k + i - 8 = 8 * (k - 1) + i by omega]
    simp [show 8 * k + i < 32 by omega, show ¬ 8 * k + i < 8 by omega]

/-- R90: the bytes of a little-endian read are the buffer's, and 0 above them. -/
theorem byteOf_readLE (m : Memory) (a n k : Nat) (hn : n ≤ 4) :
    byteOf (m.readLE a n) k = if k < n then m.read (a + k) else 0 := by
  induction n generalizing a k with
  | zero => simp [Memory.readLE, byteOf]
  | succ n ih =>
    by_cases hk : k < 4
    · rw [Memory.readLE, byteOf_or_shiftLeft _ _ k hk, ih (a + 1) (k - 1) (by omega)]
      cases k with
      | zero => simp
      | succ k => simp [Nat.add_assoc, Nat.add_comm 1 k]
    · rw [byteOf_eq_zero _ k (by omega), if_neg (by omega)]

/-- R93: the byte swap reverses the order of the bytes. -/
theorem byteOf_bswap32 (w : Word) (j : Nat) (hj : j < 4) : byteOf (bswap32 w) j = byteOf w (3 - j) := by
  ext i hi
  rw [getElem_byteOf, getElem_byteOf]
  simp only [bswap32, byteOf, BitVec.getLsbD_append, BitVec.getLsbD_extractLsb']
  split_ifs <;> rw [decide_eq_true (by omega), Bool.true_and] <;> congr 1 <;> omega

/-- R92, R93: big-endian bytes of the swapped word are the word's little-endian ones (90_conflicts C1). -/
theorem bytesFromWordBE_bswap32 (w : Word) : bytesFromWordBE (bswap32 w) = wordBytesLE w := by
  simp [bytesFromWordBE, wordBytesLE, byteOf_bswap32]

/-- Settles O29: each word's four swapped big-endian bytes are its little-endian ones, and a block is its words. -/
theorem byteSwapThenBigEndianIsLittleEndian : Obligations.ByteSwapThenBigEndianIsLittleEndian := by
  refine ⟨bytesFromWordBE_bswap32, fun s => ?_⟩
  rw [serLE, fileBytes, funext bytesFromWordBE_bswap32]

/-- R94: byte `4i + j` of the serialized block is byte `j` of word `i`. -/
theorem getElem?_serLE (s : Block) (i : Fin 16) (j : Fin 4) : (serLE s)[4 * i.val + j.val]? = some (byteOf s[i] j) := by
  have hword : (4 * i.val + j.val) / 4 = i.val := by omega
  have hbyte : (4 * i.val + j.val) % 4 = j.val := by omega
  rw [serLE, getElem?_fileBytes s _ (by omega)]
  simp [hword, hbyte]

end Sys2Proof.Machine
end

section
/-! SUPPORT. The host port by the target of an access: what a read and a write do at each, and the registers at each
offset (R80 to R87). -/

namespace Sys2Proof.Machine

/-! ### Targets with no effect -/

theorem Width.bytes_le (n : Width) : n.bytes ≤ 4 := by cases n <;> decide

/-- R83: a narrow or misaligned access to the register region is refused. -/
theorem target_refused_register (p : Params) (off : Nat) (n : Width) (hp : p.wf) (hoff : off < 0x1000)
    (h : n ≠ .word ∨ off % 4 ≠ 0) : target p (p.base + off) n = .refused := by
  obtain ⟨-, hmin, -⟩ := hp
  have hn := n.bytes_le
  rw [target, if_neg (by omega), Nat.add_sub_cancel_left]
  rw [if_pos hoff, if_neg (by tauto)]

/-- R84: a misaligned access inside the MSG window is refused. -/
theorem target_refused_message (p : Params) (a : Nat) (n : Width) (ha : a % n.bytes ≠ 0)
    (hfits : a + n.bytes ≤ p.msgBytes) : target p (p.base + 0x1000 + a) n = .refused := by
  rw [target, if_neg (by omega), show p.base + 0x1000 + a - p.base = 0x1000 + a by omega]
  rw [if_neg (by omega), Nat.add_sub_cancel_left, if_neg ha]

/-- R81: an access below BASE or with a byte past the window is not addressed to CORE. -/
theorem target_elsewhere (p : Params) (addr : Nat) (n : Width)
    (h : addr < p.base ∨ p.base + 0x1000 + p.msgBytes < addr + n.bytes) : target p addr n = .elsewhere := by
  rw [target, if_pos h]

section
variable {s : State} {addr : Nat} {n : Width}

theorem busRead_refused (h : target s.params addr n = .refused) : s.busRead addr n = s.answer .error := by
  rw [State.busRead, h]

theorem busWrite_refused (v : Word) (h : target s.params addr n = .refused) :
    s.busWrite addr n v = s.answer .error := by
  rw [State.busWrite, h]

theorem busRead_elsewhere (h : target s.params addr n = .elsewhere) : s.busRead addr n = s.answer .unanswered := by
  rw [State.busRead, h]

theorem busWrite_elsewhere (v : Word) (h : target s.params addr n = .elsewhere) :
    s.busWrite addr n v = s.answer .unanswered := by
  rw [State.busWrite, h]

end

/-- Settles O22: such an access is refused, and a refused access only answers. -/
theorem narrowOrMisalignedRegisterAccessIsRefused : Obligations.NarrowOrMisalignedRegisterAccessIsRefused := by
  intro s off n v hp hoff h
  have ht := target_refused_register s.params off n hp hoff h
  exact ⟨busRead_refused ht, busWrite_refused v ht⟩

/-- Settles O27: an access that is not CORE's only leaves the record that none was given an answer. -/
theorem unaddressedAccessChangesNothing : Obligations.UnaddressedAccessChangesNothing := by
  intro s addr n v h
  have ht := target_elsewhere s.params addr n h
  exact ⟨busRead_elsewhere ht, busWrite_elsewhere v ht⟩

/-- Settles O24: R86 for every legal access. -/
theorem writesInFlightAreDropped : Obligations.WritesInFlightAreDropped := by
  intro s addr n v hbusy hlegal
  exact busWrite_legal_busy s addr n v hlegal hbusy

/-! ### The MSG window -/

section
variable (s : State) (a : Nat) (n : Width) (ha : a % n.bytes = 0) (hfits : a + n.bytes ≤ s.params.msgBytes)
include ha hfits

/-- R85: a read of MSG while idle. -/
theorem busRead_message_idle (hbusy : s.status.busy = false) :
    s.busRead (s.params.base + 0x1000 + a) n = s.answer (.data (s.msg.readLE a n.bytes)) := by
  simp [State.busRead, target_message s.params a n ha hfits, hbusy]

/-- R85: a read of MSG in flight. -/
theorem busRead_message_busy (hbusy : s.status.busy = true) :
    s.busRead (s.params.base + 0x1000 + a) n = s.answerAny n := by
  simp [State.busRead, target_message s.params a n ha hfits, hbusy]

/-- R87: a write to MSG while idle. -/
theorem busWrite_message_idle (v : Word) (hbusy : s.status.busy = false) :
    s.busWrite (s.params.base + 0x1000 + a) n v = (s.writeMsg a n v).answer .written := by
  simp [State.busWrite, target_message s.params a n ha hfits, hbusy]

end

/-- Settles O23: an aligned access is a `MsgRead` or `MsgWrite` of its bytes, a misaligned one is refused. -/
theorem messageWindowReadsAndWritesItsBytes : Obligations.MessageWindowReadsAndWritesItsBytes := by
  intro s a n v hfits
  refine ⟨fun ha hbusy => ⟨?read, ?write⟩, fun ha => ?refused⟩
  case read =>
    refine ⟨_, busRead_message_idle s a n ha hfits hbusy, fun k hk => ?_, fun k hk => ?_⟩
    · rw [byteOf_readLE _ _ _ _ n.bytes_le, if_pos hk]
    · rw [byteOf_readLE _ _ _ _ n.bytes_le, if_neg (by omega)]
  case write =>
    refine ⟨_, busWrite_message_idle s a n ha hfits v hbusy, fun k hk => ?_, fun b hb => ?_⟩
    · rw [State.writeMsg_msg, Memory.read_writeLE, if_pos (by omega), Nat.add_sub_cancel_left]
    · rw [State.writeMsg_msg, Memory.read_writeLE, if_neg (by omega)]
  case refused =>
    have ht := target_refused_message s.params a n ha hfits
    exact ⟨busRead_refused ht, busWrite_refused v ht⟩

/-! ### The register region -/

/-- R85: a register whose reads are exact now, being no state word or CORE being idle. -/
theorem busRead_register_exact (s : State) (off : Nat) (r : Reg) (hr : Reg.ofOffset off = r)
    (hexact : s.status.busy = false ∨ r.isStateWord = false) (hoff : off < 0x1000 := by omega)
    (h4 : off % 4 = 0 := by omega) :
    s.busRead (s.params.base + off) .word = s.answer (.data (s.readReg r)) := by
  subst hr
  obtain h | h := hexact <;> simp [State.busRead, target_register s.params off hoff h4, h]

theorem reply_busRead_register (s : State) (off : Nat) (r : Reg) (hr : Reg.ofOffset off = r)
    (hexact : s.status.busy = false ∨ r.isStateWord = false) (hoff : off < 0x1000 := by omega)
    (h4 : off % 4 = 0 := by omega) :
    (s.busRead (s.params.base + off) .word).reply = some (.data (s.readReg r)) := by
  rw [busRead_register_exact s off r hr hexact hoff h4, State.answer_reply]

/-- R87: a write to the register at an offset while idle. -/
theorem busWrite_ofOffset_idle (s : State) (v : Word) (off : Nat) (r : Reg) (hr : Reg.ofOffset off = r)
    (hbusy : s.status.busy = false) (hoff : off < 0x1000 := by omega) (h4 : off % 4 = 0 := by omega) :
    s.busWrite (s.params.base + off) .word v = (s.writeReg v r).answer .written :=
  hr ▸ busWrite_register_idle s off v hoff h4 hbusy

/-- R85: a state word in flight. -/
theorem busRead_register_any (s : State) (off : Nat) (hoff : off < 0x1000) (h4 : off % 4 = 0)
    (hbusy : s.status.busy = true) (hr : (Reg.ofOffset off).isStateWord = true) :
    s.busRead (s.params.base + off) .word = s.answerAny .word := by
  simp [State.busRead, target_register s.params off hoff h4, hbusy, hr]

/-- R30: the offsets of TMPL, ORIG and X. -/
theorem isStateWord_ofOffset (off : Nat) (hlo : 0x100 ≤ off) (hhi : off < 0x1C0) :
    (Reg.ofOffset off).isStateWord = true := by
  unfold Reg.ofOffset
  iterate 6 rw [if_neg (by omega)]
  iterate 2 rw [dif_neg (by omega)]
  split; · rfl
  split; · rfl
  rw [dif_pos ⟨by omega, hhi⟩]; rfl

/-- R31, R87: the offsets of TMPL, ORIG and the reserved ones ignore writes. -/
theorem writeReg_ofOffset_ignored (s : State) (v : Word) (off : Nat)
    (h : (0x018 ≤ off ∧ off < 0x020) ∨ (0x04C ≤ off ∧ off < 0x180) ∨ 0x1C0 ≤ off) :
    s.writeReg v (Reg.ofOffset off) = s := by
  unfold Reg.ofOffset
  iterate 6 rw [if_neg (by omega)]
  iterate 2 rw [dif_neg (by omega)]
  split; · rfl
  split; · rfl
  rw [dif_neg (by omega)]; rfl

/-- Settles O25: R30's map row by row, the registers that are always exact first; MSG apart. -/
theorem portReadsReturnCurrentValues : Obligations.PortReadsReturnCurrentValues := by
  refine ⟨busRead_frame, fun s => ?_, fun s a n ha hfits =>
    ⟨busRead_message_busy s a n ha hfits, busRead_message_idle s a n ha hfits⟩⟩
  have reads := @reply_busRead_register s
  refine ⟨reads 0x000 .cfg rfl (.inr rfl), reads 0x004 .cmd rfl (.inr rfl), reads 0x008 .status rfl (.inr rfl),
    reads 0x00C .len rfl (.inr rfl), reads 0x010 .ctrLo rfl (.inr rfl), reads 0x014 .ctrHi rfl (.inr rfl),
    fun n => reads _ (.key n) (reg_ofOffset_key n) (.inr rfl),
    fun n => reads _ (.nonce n) (reg_ofOffset_nonce n) (.inr rfl),
    fun off h4 hoff => reads off .reserved (reg_ofOffset_reserved off (by omega)) (.inr rfl),
    fun hbusy i => ⟨?tmpl, ?orig, ?x⟩, fun hbusy off h4 hlo hhi => ?inFlight⟩
  case tmpl => exact reads _ (.tmpl i) (reg_ofOffset_tmpl i) (.inl hbusy)
  case orig => exact reads _ (.orig i) (reg_ofOffset_orig i) (.inl hbusy)
  case x => exact reads _ (.x i) (reg_ofOffset_x i) (.inl hbusy)
  case inFlight => exact busRead_register_any s off (by omega) h4 hbusy (isStateWord_ofOffset off hlo hhi)

/-- R32: CFG's bits that are not reserved. -/
theorem getLsbD_cfgMask (i : Nat) (hi : i < 32) : cfgMask.getLsbD i =
    decide (i ≤ 2 ∨ (8 ≤ i ∧ i ≤ 15) ∨ (16 ≤ i ∧ i ≤ 21) ∨ (24 ≤ i ∧ i ≤ 27)) := by
  revert i; decide

/-- R46: the acknowledged STATUS, flag by flag. -/
theorem Status.acked_eq (f : Status) (v : Word) : f.acked v = { f with
    done := if v.getLsbD 1 then false else f.done
    wovr := if v.getLsbD 5 then false else f.wovr } := by
  rw [Status.acked]
  cases v.getLsbD 1 <;> cases v.getLsbD 5 <;> simp

/-- Settles O26: R30's map row by row, each write by the register it reaches; MSG apart. -/
theorem idleWritesStoreIssueOrClear : Obligations.IdleWritesStoreIssueOrClear := by
  intro s v hbusy
  have stores := @busWrite_ofOffset_idle s v
  refine ⟨⟨_, stores 0x000 .cfg rfl hbusy, fun i hi => ?cfg⟩, stores 0x004 .cmd rfl hbusy, ?status,
    stores 0x00C .len rfl hbusy, stores 0x010 .ctrLo rfl hbusy, stores 0x014 .ctrHi rfl hbusy,
    fun n => stores _ (.key n) (reg_ofOffset_key n) hbusy, fun n => stores _ (.nonce n) (reg_ofOffset_nonce n) hbusy,
    fun i => stores _ (.x i) (reg_ofOffset_x i) hbusy, fun off h4 hoff => ?ignored,
    fun a n ha hfits => busWrite_message_idle s a n ha hfits v hbusy⟩
  case cfg => rw [State.writeReg, BitVec.getLsbD_and, getLsbD_cfgMask i hi]
  case status =>
    refine (stores 0x008 .status rfl hbusy).trans ?_
    rw [State.writeReg, Status.acked_eq]; rfl
  case ignored =>
    refine (stores off _ rfl hbusy).trans ?_
    rw [writeReg_ofOffset_ignored s v off (by omega)]; rfl

/-- Settles O28: the port reads word `i` of X, and the serialized block has its bytes. -/
theorem keystreamIsReadThroughThePort : Obligations.KeystreamIsReadThroughThePort := by
  intro s i j hbusy
  refine ⟨s.x[i], ?_, getElem?_serLE s.x i j⟩
  rw [Nat.add_assoc]
  exact reply_busRead_register s _ (.x i) (reg_ofOffset_x i) (.inl hbusy)

end Sys2Proof.Machine
end

section
/-! SUPPORT. What no command reads or writes, WOVR (R44) and the model's own fields (logs 1 to 3), and that the engine's
turn is the same whatever they hold (R100). -/

namespace Sys2Proof.Machine

/-- The fields of a state that no command reads or writes. -/
structure Side where
  wovr     : Bool
  reply    : Option Reply
  draws    : Nat
  program  : List HostLine
  schedule : List Slot

/-- What a state holds in these fields. -/
def State.side (s : State) : Side :=
  { wovr := s.status.wovr, reply := s.reply, draws := s.draws, program := s.program, schedule := s.schedule }

/-- The state with these fields replaced. -/
def State.withSide (s : State) (k : Side) : State :=
  { s with
    status := { s.status with wovr := k.wovr }
    reply := k.reply, draws := k.draws, program := k.program, schedule := k.schedule }

@[simp] theorem State.withSide_side (s : State) : s.withSide s.side = s := rfl
@[simp] theorem State.side_withSide (s : State) (k : Side) : (s.withSide k).side = k := rfl
@[simp] theorem State.withSide_withSide (s : State) (k l : Side) : (s.withSide k).withSide l = s.withSide l := rfl
@[simp] theorem State.withSide_busy (s : State) (k : Side) : (s.withSide k).status.busy = s.status.busy := rfl
@[simp] theorem State.withSide_params (s : State) (k : Side) : (s.withSide k).params = s.params := rfl
@[simp] theorem State.withSide_pend (s : State) (k : Side) : (s.withSide k).pend = s.pend := rfl
@[simp] theorem State.withSide_capture (s : State) (k : Side) : (s.withSide k).capture = s.capture := rfl

@[simp] theorem State.withSide_operands (s : State) (k : Side) : (s.withSide k).operands = s.operands := rfl

/-! ### The engine -/

theorem engineTurn_next (s : State) : ∃ u, engineTurn s = .next u := takeTurn_next .engine s

/-- A command's run reads none of these fields and carries them along. -/
theorem runOf_withSide (i : Instr) (o : Operands) (s : State) (k : Side) :
    runOf i o (s.withSide k) = (runOf i o s).map (·.withSide k) := by
  cases i with
  | init => simp only [runOf, runInit, apply_ite (Except.map (State.withSide · k))]; rfl
  | ldctr =>
    simp only [runOf, runLdctr, apply_ite (Except.map (State.withSide · k))]
    cases setCounter o.tmpl o.startCounter o.tdialect <;> rfl
  | hash => simp only [runOf, runHash, apply_ite (Except.map (State.withSide · k))]; rfl
  | crypt => simp only [runOf, runCrypt, apply_ite (Except.map (State.withSide · k))]; rfl
  | _ => rfl

/-- A completion carries them along too (R203). -/
theorem complete_withSide (s u : State) (r : Except CmdError State) (k : Side) (h : s.complete r = .next u) :
    (s.withSide k).complete (r.map (·.withSide k)) = .next (u.withSide k) := by
  cases r <;> cases h <;> rfl

theorem exec_withSide (i : Instr) (s u : State) (k : Side) (h : exec i s = .next u) :
    exec i (s.withSide k) = .next (u.withSide k) := by
  rw [exec_eq_complete] at h ⊢
  rw [State.withSide_operands, runOf_withSide]
  exact complete_withSide s u _ k h

theorem engineTurn_withSide (s u : State) (k : Side) (h : engineTurn s = .next u) :
    engineTurn (s.withSide k) = .next (u.withSide k) := by
  unfold engineTurn at h ⊢
  rw [State.withSide_pend]
  cases hpend : s.pend with
  | none => rw [hpend] at h; cases h; rfl
  | some p =>
    simp only [hpend] at h ⊢
    cases hword : decode p.word with
    | command i => rw [hword] at h; exact exec_withSide i s u k h
    | illegal r => rw [hword] at h; exact complete_withSide s u _ k h

/-- The engine's turn leaves these fields as they are. -/
theorem side_of_engineTurn (s u : State) (h : engineTurn s = .next u) : u.side = s.side := by
  have hu := engineTurn_withSide s u s.side h
  rw [State.withSide_side, h, Host.Outcome.next.injEq] at hu
  rw [hu, State.side_withSide]

/-! ### The host while a command is in flight -/

/-- R85, R86: a transaction in flight reaches WOVR, the answer and the draw count alone. -/
theorem transact_busy (s : State) (t : Turn) (hbusy : s.status.busy = true) :
    ∃ w r d, s.transact t = s.withSide { s.side with wovr := w, reply := r, draws := d } := by
  cases t with
  | read addr n =>
    obtain ⟨r, d, h⟩ := busRead_frame s addr n
    exact ⟨s.status.wovr, r, d, h⟩
  | write addr n v =>
    obtain ⟨_, hidle, -⟩ | ⟨_, hidle, -⟩ | ⟨-, -, h⟩ | ⟨r, h⟩ := busWrite_cases s addr n v
    · simp [hbusy] at hidle
    · simp [hbusy] at hidle
    · exact ⟨true, some .written, s.draws, h⟩
    · exact ⟨s.status.wovr, some r, s.draws, h⟩
  | engine | reset => exact ⟨s.status.wovr, s.reply, s.draws, rfl⟩

/-- R100: so does any sequence of them. -/
theorem foldl_transact_busy (ts : List Turn) (s : State) (hbusy : s.status.busy = true) :
    ∃ w r d, ts.foldl State.transact s = s.withSide { s.side with wovr := w, reply := r, draws := d } := by
  induction ts generalizing s with
  | nil => exact ⟨s.status.wovr, s.reply, s.draws, rfl⟩
  | cons t ts ih =>
    obtain ⟨w, r, d, h⟩ := transact_busy s t hbusy
    rw [List.foldl_cons, h]
    exact ih _ hbusy

/-- Settles O15: transactions in flight change none of what the engine's turn reads, and that turn keeps what they do
change. -/
theorem resultDependsOnStateAtIssueAlone : Obligations.ResultDependsOnStateAtIssueAlone := by
  intro s w ts _ late
  obtain ⟨b, r, d, hlate⟩ := foldl_transact_busy ts (s.issue w) rfl
  obtain ⟨u, hu⟩ := engineTurn_next (s.issue w)
  have hv := engineTurn_withSide _ u { u.side with wovr := b, reply := r, draws := d } hu
  rw [← side_of_engineTurn _ u hu] at hlate
  rw [← hlate] at hv
  exact ⟨congrArg State.pend hlate, (congrArg State.capture hlate).trans rfl, u, _, hu, hv, rfl⟩

end Sys2Proof.Machine
end

section
/-! SUPPORT. The decoder on a command's own word (R112, R116). -/

namespace Sys2Proof

/-- R112, R116: the word of a command decodes to it. -/
theorem decode_encode (i : Instr) : decode (encode i) = .command i := by
  cases i with
  | qr qa qb qc qd =>
    have hw := toNat_encode_qr qa qb qc qd
    have ha := qa.isLt; have hb := qb.isLt; have hc := qc.isLt; have hd := qd.isLt
    have hmask := (qr_mask_iff (encode (.qr qa qb qc qd))).2 (by omega)
    have hinit : encode (.qr qa qb qc qd) ≠ 0x00000001 := fun h => by rw [h] at hmask; exact absurd hmask (by decide)
    have hldctr : encode (.qr qa qb qc qd) ≠ 0x00000002 := fun h => by rw [h] at hmask; exact absurd hmask (by decide)
    rw [decode, if_neg hinit, if_neg hldctr, if_pos hmask, Decoded.command.injEq, Instr.qr.injEq]
    refine ⟨Fin.ext ?_, Fin.ext ?_, Fin.ext ?_, Fin.ext ?_⟩
    · rw [fieldQA, nibble_val]; omega
    · rw [fieldQB, nibble_val]; omega
    · rw [fieldQC, nibble_val]; omega
    · rw [fieldQD, nibble_val]; omega
  | _ => rfl

end Sys2Proof
end

section
/-! SUPPORT. A program that writes X after a command with no `WAIT` between (95_test_vectors P6): one step per slot, in
states given up to what no command reads or writes. -/

namespace Sys2Proof.Machine

/-- The host's run of the machine, its first step apart. -/
theorem core_run_of_step {n : Nat} {s t : State} {r : Host.Outcome State Fault Refusal} (hstep : step s = .next t)
    (hrun : core.run n t = r) : core.run (n + 1) s = r :=
  (core_run_succ n s t hstep).trans hrun

/-! ### One slot -/

section
variable (s : State) (k : Side) (lines : List HostLine) (rest : List Slot) (hslots : k.schedule = .host :: rest)
include hslots

/-- R110: the host issues a command while idle. -/
theorem step_host_cmd_idle (i : Instr) (hprog : k.program = .cmd i :: lines) (hbusy : s.status.busy = false) :
    step (s.withSide k) = .next ((s.issue (encode i)).withSide
      { k with reply := some .written, program := lines, schedule := rest }) := by
  rw [step_host _ _ lines rest hprog hslots, linesLeft_line _ _ _ (by simp)]
  exact congrArg Host.Outcome.next (busWrite_ofOffset_idle _ (encode i) 0x004 .cmd rfl hbusy)

/-- R86: the host writes a word of X in flight. -/
theorem step_host_writeX_busy (j : Fin 16) (v : Word) (hprog : k.program = .w (0x180 + 4 * j) v :: lines)
    (hbusy : s.status.busy = true) :
    step (s.withSide k) = .next (s.withSide
      { k with wovr := true, reply := some .written, program := lines, schedule := rest }) := by
  rw [step_host _ _ lines rest hprog hslots, linesLeft_line _ _ _ (by simp)]
  exact congrArg Host.Outcome.next
    (busWrite_legal_busy _ _ .word v (.inl ⟨0x180 + 4 * j, rfl, by omega, by omega, rfl⟩) hbusy)

/-- R87: the host writes a word of X while idle. -/
theorem step_host_writeX_idle (j : Fin 16) (v : Word) (hprog : k.program = .w (0x180 + 4 * j) v :: lines)
    (hbusy : s.status.busy = false) :
    step (s.withSide k) = .next ((s.writeReg v (.x j)).withSide
      { k with reply := some .written, program := lines, schedule := rest }) := by
  rw [step_host _ _ lines rest hprog hslots, linesLeft_line _ _ _ (by simp)]
  exact congrArg Host.Outcome.next (busWrite_ofOffset_idle _ v _ (.x j) (reg_ofOffset_x j) hbusy)

/-- R118: the host's `WAIT` finds BUSY = 0 and is done. -/
theorem step_host_wait_idle (hprog : k.program = .wait :: lines) (hbusy : s.status.busy = false) :
    step (s.withSide k) = .next (s.withSide
      { k with reply := some (.data (s.withSide k).status.word), program := lines, schedule := rest }) := by
  rw [step_host _ _ lines rest hprog hslots, State.withSide_busy, hbusy, linesLeft_idle]
  exact congrArg Host.Outcome.next (busRead_register_exact _ 0x008 .status rfl (.inr rfl))

end

/-- R203: the engine's turn on a command just issued is the command. -/
theorem engineTurn_issue_encode (s : State) (i : Instr) :
    engineTurn (s.issue (encode i)) = exec i (s.issue (encode i)) := by
  rw [engineTurn, State.issue_pend]
  simp only [decode_encode]

/-- R203: the engine's slot completes the command issued on `s`. -/
theorem step_engine_issued (s u : State) (i : Instr) (k : Side) (rest : List Slot)
    (hslots : k.schedule = .turn .engine :: rest) (hrun : exec i (s.issue (encode i)) = .next u) :
    step ((s.issue (encode i)).withSide k) = .next (u.withSide { k with schedule := rest }) := by
  rw [step_turn _ .engine rest hslots]
  rw [← engineTurn_issue_encode] at hrun
  exact engineTurn_withSide _ u { k with schedule := rest } hrun

/-- R203: a command leaves CORE idle. -/
theorem busy_of_exec (i : Instr) (s u : State) (h : exec i s = .next u) : u.status.busy = false := by
  obtain ⟨t, -, rfl⟩ | ⟨e, -, rfl⟩ := exec_cases i s u h <;> rfl

/-! ### The two orders -/

section
variable {s u : State} {i : Instr} {j : Fin 16} {v : Word} {lines : List HostLine} (hbusy : s.status.busy = false)
  (hprog : s.program = .cmd i :: .w (0x180 + 4 * j) v :: .wait :: lines)
  (hrun : exec i (s.issue (encode i)) = .next u)
include hbusy hprog hrun

/-- R101, R86: the write comes first and is dropped. -/
theorem run_writeX_then_completion (hslots : s.schedule = [.host, .host, .turn .engine, .host]) :
    core.run 4 s = .next (u.withSide { s.side with
      wovr := true, reply := some (.data { u.status with wovr := true }.word), program := lines, schedule := [] }) := by
  refine core_run_of_step (step_host_cmd_idle s s.side _ _ hslots i hprog hbusy) ?_
  refine core_run_of_step (step_host_writeX_busy (s.issue (encode i)) _ _ _ rfl j v rfl rfl) ?_
  refine core_run_of_step (step_engine_issued s u i _ _ rfl hrun) ?_
  exact core_run_of_step (step_host_wait_idle u _ _ _ rfl rfl (busy_of_exec i _ u hrun)) rfl

/-- R101, R87: the completion comes first and the write is stored. -/
theorem run_completion_then_writeX (hslots : s.schedule = [.host, .turn .engine, .host, .host]) :
    core.run 4 s = .next ((u.writeReg v (.x j)).withSide { s.side with
      reply := some (.data (u.withSide s.side).status.word), program := lines, schedule := [] }) := by
  have hidle := busy_of_exec i _ u hrun
  refine core_run_of_step (step_host_cmd_idle s s.side _ _ hslots i hprog hbusy) ?_
  refine core_run_of_step (step_engine_issued s u i _ _ rfl hrun) ?_
  refine core_run_of_step (step_host_writeX_idle u _ _ _ rfl j v rfl hidle) ?_
  exact core_run_of_step (step_host_wait_idle (u.writeReg v (.x j)) _ _ _ rfl rfl hidle) rfl

end

/-- Settles O54: the run of each schedule, slot by slot; what no command writes is as it was at issue. -/
theorem writeAndCompletionComeInEitherOrder : Obligations.WriteAndCompletionComeInEitherOrder := by
  intro s i j v lines hbusy hprog
  obtain ⟨u, hengine⟩ := engineTurn_next (s.issue (encode i))
  have hrun := (engineTurn_issue_encode s i).symm.trans hengine
  have hside : u.side = s.side := side_of_engineTurn (s.issue (encode i)) u hengine
  refine ⟨u, hrun, fun hslots => ?dropped, fun hslots => ?stored⟩
  case dropped =>
    have h := run_writeX_then_completion hbusy hprog hrun hslots
    rw [← hside] at h
    exact ⟨_, h, rfl⟩
  case stored =>
    have h := run_completion_then_writeX hbusy hprog hrun hslots
    rw [← hside] at h
    exact ⟨_, h, rfl⟩

end Sys2Proof.Machine
end

section
/-! SUPPORT. Commands and words (spec 30_encoding R111 to R117): a command has one word, and the words that
are no command's are R114's. -/

namespace Sys2Proof

/-! ### A word and its command -/

/-- R111, R116: a word whose fixed bits are QR's is the word of QR on its own four fields. -/
theorem encode_qr_fields (w : Word) (hlo : w.toNat % 2 ^ 8 = 3) (hhi : w.toNat / 2 ^ 24 = 0) :
    encode (.qr (fieldQA w) (fieldQB w) (fieldQC w) (fieldQD w)) = w := by
  apply BitVec.eq_of_toNat_eq
  rw [toNat_encode_qr, fieldQA, fieldQB, fieldQC, fieldQD]
  simp only [nibble_val]
  omega

/-- R112: and it decodes to that QR. -/
theorem decode_qr_word (w : Word) (hlo : w.toNat % 2 ^ 8 = 3) (hhi : w.toNat / 2 ^ 24 = 0) :
    decode w = .command (.qr (fieldQA w) (fieldQB w) (fieldQC w) (fieldQD w)) := by
  have h := decode_encode (.qr (fieldQA w) (fieldQB w) (fieldQC w) (fieldQD w))
  rwa [encode_qr_fields w hlo hhi] at h

/-- R115: a word that decodes to a command is that command's word. -/
theorem encode_of_decode (w : Word) (i : Instr) (h : decode w = .command i) : encode i = w := by
  obtain ⟨rfl, rfl⟩ | ⟨rfl, rfl⟩ | ⟨rfl, hmask⟩ | ⟨rfl, rfl⟩ | ⟨rfl, rfl⟩ | ⟨rfl, rfl⟩ | ⟨rfl, rfl⟩ | ⟨rfl, rfl⟩ :=
    decode_command_cases w i h
  case inr.inr.inl =>
    obtain ⟨hlo, hhi⟩ := (qr_mask_iff w).1 hmask
    exact encode_qr_fields w hlo hhi
  all_goals rfl

/-- Settles O2: QR's word by its number and its fields, the seven other words by computation. -/
theorem decodeOfEncodeIsTheCommand : Obligations.DecodeOfEncodeIsTheCommand := decode_encode

/-- Settles O3: the decoder's row fixes every bit of the word. -/
theorem commandHasOneWord : Obligations.CommandHasOneWord := encode_of_decode

/-- Settles O5: the decoder's fields as numbers. -/
theorem qrOperandsAreTheWordsFields : Obligations.QrOperandsAreTheWordsFields := by
  intro w hlo hhi
  exact ⟨_, _, _, _, decode_qr_word w hlo hhi, nibble_val w 8, nibble_val w 12, nibble_val w 16, nibble_val w 20⟩

/-! ### The illegal words -/

/-- R114, negated: OP is QR's and no bit of 7:4 or 31:24 is 1, or the whole word is OP and names one of the seven other
commands. -/
theorem not_illegalWord_iff (w : Word) : ¬ IllegalWord w ↔
    (w.toNat % 2 ^ 8 = 3 ∧ w.toNat / 2 ^ 24 = 0) ∨ (1 ≤ w.toNat ∧ w.toNat ≤ 8 ∧ w.toNat ≠ 3) := by
  simp only [IllegalWord, opNumber, List.mem_cons, List.not_mem_nil, or_false]
  omega

/-- R114: no command's word is among the illegal ones. -/
theorem not_illegalWord_encode (i : Instr) : ¬ IllegalWord (encode i) := by
  rw [not_illegalWord_iff]
  cases i with
  | qr qa qb qc qd => exact .inl ((qr_mask_iff _).1 (Laws.TableRow.qr qa qb qc qd))
  | _ => exact .inr (by decide)

/-- R112, R114: a word outside the three cases is some command's. -/
theorem exists_encode_of_not_illegalWord (w : Word) (h : ¬ IllegalWord w) : ∃ i, encode i = w := by
  obtain ⟨hlo, hhi⟩ | ⟨hmin, hmax, hqr⟩ := (not_illegalWord_iff w).1 h
  · exact ⟨_, encode_qr_fields w hlo hhi⟩
  · have hword : w = 1 ∨ w = 2 ∨ w = 4 ∨ w = 5 ∨ w = 6 ∨ w = 7 ∨ w = 8 := by
      simp only [← BitVec.toNat_inj, BitVec.toNat_ofNat, BitVec.ofNat_eq_ofNat]
      omega
    obtain rfl | rfl | rfl | rfl | rfl | rfl | rfl := hword
    exacts [⟨.init, rfl⟩, ⟨.ldctr, rfl⟩, ⟨.colr, rfl⟩, ⟨.diagr, rfl⟩, ⟨.ffwd, rfl⟩, ⟨.hash, rfl⟩, ⟨.crypt, rfl⟩]

/-- R112, R114: the decoder rejects exactly the words of the three cases. -/
theorem decode_illegal_iff (w : Word) : (∃ r, decode w = .illegal r) ↔ IllegalWord w := by
  constructor
  · rintro ⟨r, hr⟩
    by_contra hlegal
    obtain ⟨i, rfl⟩ := exists_encode_of_not_illegalWord w hlegal
    simp [decode_encode] at hr
  · intro hw
    cases hd : decode w with
    | illegal r => exact ⟨r, rfl⟩
    | command i => exact absurd (encode_of_decode w i hd ▸ hw) (not_illegalWord_encode i)

end Sys2Proof
end

section
/-! SUPPORT. Commands and host programs (spec 30_encoding R110, R114, R117, R118): what the engine's turn makes of the word
in flight, and what each line of the host does at its slot. -/

namespace Sys2Proof.Machine

/-! ### The engine's turn on the word in flight -/

section
variable (s : State) (p : Pending) (hpend : s.pend = some p)
include hpend

/-- R203: a command's word is run. -/
theorem engineTurn_of_command (i : Instr) (hword : decode p.word = .command i) : engineTurn s = exec i s := by
  simp only [engineTurn, hpend, hword]

/-- R114: an illegal word completes with IllegalCommand. -/
theorem engineTurn_of_illegal (r : Reject) (hword : decode p.word = .illegal r) :
    engineTurn s = .next (s.completed (some .illegalCommand)) := by
  simp only [engineTurn, hpend, hword, complete_eq_next]

end

/-- R203: the engine's turn on a command in flight leaves CORE idle and DONE. -/
theorem engineTurn_completes (s u : State) (hpend : s.pend ≠ none) (h : engineTurn s = .next u) :
    u.pend = none ∧ u.status.busy = false ∧ u.status.done = true := by
  obtain ⟨hnone, -⟩ | ⟨p, i, t, -, -, -, rfl⟩ | ⟨p, e, -, rfl, -⟩ := engineTurn_cases s u h
  · exact absurd hnone hpend
  · exact ⟨rfl, rfl, rfl⟩
  · exact ⟨rfl, rfl, rfl⟩

/-- A slot of the engine: its turn is taken. -/
theorem step_engine (s : State) (rest : List Slot) (hslots : s.schedule = .turn .engine :: rest) :
    step s = engineTurn { s with schedule := rest } := step_turn s .engine rest hslots

/-- Settles O4: R114's three cases are the words the decoder rejects, and such a word's completion writes no more than the
completion fields. -/
theorem illegalWordsCompleteWithIllegalCommand : Obligations.IllegalWordsCompleteWithIllegalCommand := by
  refine ⟨decode_illegal_iff, fun s p hpend hword => ?_⟩
  obtain ⟨r, hr⟩ := (decode_illegal_iff p.word).2 hword
  exact engineTurn_of_illegal s p hpend r hr

/-- Settles O7: the write of CMD issues, and the engine's turn runs the word it put in flight. -/
theorem commandWriteThenEngineRunsIt : Obligations.CommandWriteThenEngineRunsIt := by
  intro s i rest hbusy hslots
  refine ⟨(State.issue { s with schedule := .turn .engine :: rest } (encode i)).answer .written, ?write, ?engine⟩
  case write =>
    rw [step_turn s _ _ hslots]
    exact congrArg Host.Outcome.next (busWrite_ofOffset_idle _ (encode i) 0x004 .cmd rfl hbusy)
  case engine =>
    rw [step_engine _ rest rfl]
    exact engineTurn_of_command _ { word := encode i, operands := s.capture } rfl i (decode_encode i)

/-! ### The host's lines -/

section
variable (s : State) (lines : List HostLine) (rest : List Slot) (hslots : s.schedule = .host :: rest)
include hslots

/-- R118: a line that is no `WAIT` makes its transaction and is done. -/
theorem step_host_line (l : HostLine) (hprog : s.program = l :: lines) (hl : l ≠ .wait) :
    step s = takeTurn (l.turn s.params) { s with program := lines, schedule := rest } := by
  rw [step_host s l lines rest hprog hslots, linesLeft_line _ l lines hl]

/-- R118: `WAIT` reads STATUS, and stays when that read finds BUSY = 1. -/
theorem step_host_wait (hprog : s.program = .wait :: lines) :
    step s = .next { s with
      reply := some (.data s.status.word)
      program := if s.status.busy then .wait :: lines else lines
      schedule := rest } := by
  rw [step_host s .wait lines rest hprog hslots, linesLeft_wait]
  exact congrArg Host.Outcome.next (busRead_register_exact _ 0x008 .status rfl (.inr rfl))

end

/-- Settles O52: one line of the program at one slot of the host. -/
theorem hostLinesRunAsTheirTransactions : Obligations.HostLinesRunAsTheirTransactions := by
  intro s l lines rest hprog hslots
  have hline := step_host_line s lines rest hslots l hprog
  refine ⟨?w, ?wh, ?wb, ?r, ?cmd, ?waitBusy, ?waitIdle⟩
  case w => rintro off v rfl; exact hline (by simp)
  case wh => rintro off v rfl; exact hline (by simp)
  case wb => rintro off v rfl; exact hline (by simp)
  case r => rintro off rfl; exact hline (by simp)
  case cmd => rintro i rfl; exact hline (by simp)
  case waitBusy =>
    rintro rfl hbusy
    rw [step_host_wait s lines rest hslots hprog, if_pos hbusy, ← hprog]
  case waitIdle =>
    rintro rfl hbusy
    rw [step_host_wait s lines rest hslots hprog, if_neg (by simp [hbusy])]

/-! ### The polls of a `WAIT` -/

/-- R118: `n` polls in flight leave the answer of the last one and take their slots; the host stays at the `WAIT`. -/
theorem core_run_polls (n m : Nat) (s : State) (lines : List HostLine) (slots : List Slot)
    (hbusy : s.status.busy = true) (hprog : s.program = .wait :: lines)
    (hslots : s.schedule = List.replicate n .host ++ slots) :
    ∃ r, core.run (n + m) s = core.run m { s with reply := r, schedule := slots } := by
  induction n generalizing s with
  | zero =>
    have hnow : s.schedule = slots := hslots
    subst hnow
    exact ⟨s.reply, by rw [Nat.zero_add]⟩
  | succ n ih =>
    rw [List.replicate_succ, List.cons_append] at hslots
    have hpoll := step_host_wait s lines _ hslots hprog
    rw [if_pos hbusy, ← hprog] at hpoll
    obtain ⟨r, hr⟩ := ih { s with reply := some (.data s.status.word), schedule := List.replicate n .host ++ slots }
      hbusy hprog rfl
    exact ⟨r, by rw [Nat.add_right_comm]; exact core_run_of_step hpoll hr⟩

/-- Settles O53: the polls, the engine's turn that completes the command, and the poll that finds CORE idle. -/
theorem waitPollsUntilTheCommandCompletes : Obligations.WaitPollsUntilTheCommandCompletes := by
  intro s n lines rest hbusy hpend hprog hslots
  obtain ⟨r, hpolls⟩ := core_run_polls n 2 s lines (.turn .engine :: .host :: rest) hbusy hprog hslots
  obtain ⟨u, hu⟩ := engineTurn_next { s with reply := r, schedule := .host :: rest }
  obtain ⟨hupend, hubusy, hudone⟩ := engineTurn_completes { s with reply := r, schedule := .host :: rest } u hpend hu
  have hside := side_of_engineTurn _ u hu
  have huprog : u.program = .wait :: lines := (congrArg Side.program hside).trans hprog
  have huslots : u.schedule = .host :: rest := congrArg Side.schedule hside
  have hengine : step { s with reply := r, schedule := .turn .engine :: .host :: rest } = .next u :=
    (step_engine _ (.host :: rest) rfl).trans hu
  have hlast := step_host_wait u lines rest huslots huprog
  rw [if_neg (by simp [hubusy])] at hlast
  exact ⟨_, hpolls.trans (core_run_of_step hengine (core_run_of_step hlast rfl)), rfl, rfl, hupend, hubusy, hudone, rfl⟩

/-! ### The pseudo-commands -/

/-- Settles O50: R117's table, by computation. -/
theorem pseudoCommandsExpandToTheRounds : Obligations.PseudoCommandsExpandToTheRounds := by
  exact ⟨by decide, by decide, rfl, rfl⟩

end Sys2Proof.Machine
end

section
/-! SUPPORT. The state builder (spec 40_state_builder): the words of a template, and what INIT and LDCTR answer in
each of their cases. -/

namespace Sys2Proof.Machine

/-- R203: a run that succeeds completes with its writes. -/
theorem exec_of_runOf_ok (i : Instr) (s t : State) (h : runOf i s.operands s = .ok t) :
    exec i s = .next (t.completed none) := by
  rw [exec_eq_complete, complete_eq_next, h]

/-- R201: a run that fails completes with its error and no writes. -/
theorem exec_of_runOf_error (i : Instr) (s : State) (e : CmdError) (h : runOf i s.operands s = .error e) :
    exec i s = .next (s.completed (some e)) := by
  rw [exec_eq_complete, complete_eq_next, h]

/-! ### The constants -/

/-- Settles O33: the sixteen bytes of each string, four to a word, by computation. -/
theorem constantsAreTheAsciiStrings : Obligations.ConstantsAreTheAsciiStrings := by
  exact ⟨by decide, by decide, rfl, rfl⟩

/-! ### The words of a template -/

/-- R132: an IETF template holds the three nonce words after one counter word. -/
theorem buildTemplateState_ietf (key nonce : List Byte) :
    (buildTemplateState key nonce .ietf)[13] = wordFromBytesLE nonce 0 ∧
    (buildTemplateState key nonce .ietf)[14] = wordFromBytesLE nonce 4 ∧
    (buildTemplateState key nonce .ietf)[15] = wordFromBytesLE nonce 8 := ⟨rfl, rfl, rfl⟩

/-- R132: a DJB template holds the two nonce words after a second zero counter word. -/
theorem buildTemplateState_djb (key nonce : List Byte) :
    (buildTemplateState key nonce .djb)[13] = 0 ∧
    (buildTemplateState key nonce .djb)[14] = wordFromBytesLE nonce 0 ∧
    (buildTemplateState key nonce .djb)[15] = wordFromBytesLE nonce 4 := ⟨rfl, rfl, rfl⟩

/-- R134: the words of a 16-byte key repeat after four. -/
theorem keyWord_add_four (key : List Byte) (n : Nat) (hlen : key.length = 16) :
    keyWord key (n + 4) = keyWord key n := by
  rw [keyWord, keyWord, hlen, Nat.add_mod_right]

/-- Settles O35: the invariant's template is some key's, whose words 4 to 7 are words 0 to 3 when it has 16 bytes. -/
theorem builtTemplateHasZeroCounterAndDuplicatedKey : Obligations.BuiltTemplateHasZeroCounterAndDuplicatedKey := by
  intro s hs hvalid
  obtain ⟨key, nonce, hkey, -, htmpl⟩ := hs.template.2 hvalid
  obtain ⟨-, hwords, hcounter⟩ := buildTemplateState_words key nonce s.status.tdialect
  rw [htmpl]
  refine ⟨hcounter, fun hdjb => ?second, fun h16 => ?duplicated⟩
  case second => rw [hdjb]; exact (buildTemplateState_djb key nonce).1
  case duplicated =>
    have hrepeat (n : Nat) : keyWord key (n + 4) = keyWord key n := keyWord_add_four key n (by simp [hkey, h16])
    exact ⟨(hwords 4).trans ((hrepeat 0).trans (hwords 0).symm), (hwords 5).trans ((hrepeat 1).trans (hwords 1).symm),
      (hwords 6).trans ((hrepeat 2).trans (hwords 2).symm), (hwords 7).trans ((hrepeat 3).trans (hwords 3).symm)⟩

/-! ### INIT -/

/-- R49, R132: the key words of a legal key length are KEY's registers, the first four twice for 16 bytes. -/
theorem keyWord_keyBytes (o : Operands) (hlen : cfgKeyLen o.cfg = 16 ∨ cfgKeyLen o.cfg = 32) (n : Fin 8) :
    keyWord o.keyBytes n = if cfgKeyLen o.cfg = 32 then o.key[n] else o.key[n.val % 4] := by
  rw [keyWord, length_keyBytes o (by omega), Operands.keyBytes]
  obtain h16 | h32 := hlen
  · rw [h16, if_neg (by decide), wordFromBytesLE_take_fileBytes _ _ _ (by omega) (by omega)]
  · simp only [h32, if_true, show n.val % (32 / 4) = n.val by omega]
    exact wordFromBytesLE_take_fileBytes _ _ _ n.isLt (by omega)

/-- R50: the nonce words that NONCELEN covers are NONCE's registers. -/
theorem wordFromBytesLE_nonceBytes (o : Operands) (k : Fin 3) (hlen : 4 * k.val + 4 ≤ cfgNonceLen o.cfg) :
    wordFromBytesLE o.nonceBytes (4 * k.val) = o.nonce[k] :=
  wordFromBytesLE_take_fileBytes o.nonce _ k.val k.isLt hlen

/-- R50, R132: INIT's nonce words are NONCE's registers, three for IETF and two for DJB. -/
theorem buildTemplateState_nonceBytes (o : Operands) (key : List Byte) (d : Dialect)
    (hnonce : cfgNonceLen o.cfg = d.nonceLen) :
    (d = .ietf → (buildTemplateState key o.nonceBytes d)[13] = o.nonce[0] ∧
      (buildTemplateState key o.nonceBytes d)[14] = o.nonce[1] ∧
      (buildTemplateState key o.nonceBytes d)[15] = o.nonce[2]) ∧
    (d = .djb → (buildTemplateState key o.nonceBytes d)[13] = 0 ∧
      (buildTemplateState key o.nonceBytes d)[14] = o.nonce[0] ∧
      (buildTemplateState key o.nonceBytes d)[15] = o.nonce[1]) := by
  have hword (k : Fin 3) (hk : 4 * k.val + 4 ≤ d.nonceLen) := wordFromBytesLE_nonceBytes o k (hnonce ▸ hk)
  constructor
  · rintro rfl
    obtain ⟨h13, h14, h15⟩ := buildTemplateState_ietf key o.nonceBytes
    exact ⟨h13.trans (hword 0 (by decide)), h14.trans (hword 1 (by decide)), h15.trans (hword 2 (by decide))⟩
  · rintro rfl
    obtain ⟨h13, h14, h15⟩ := buildTemplateState_djb key o.nonceBytes
    exact ⟨h13, h14.trans (hword 0 (by decide)), h15.trans (hword 1 (by decide))⟩

/-- R133: INIT's first check. -/
theorem runInit_badKeyLen (o : Operands) (s : State) (h16 : cfgKeyLen o.cfg ≠ 16) (h32 : cfgKeyLen o.cfg ≠ 32) :
    runInit o s = .error .invalidKeyLength := if_pos ⟨h16, h32⟩

/-- R133: INIT's second check. -/
theorem runInit_badNonceLen (o : Operands) (s : State) (hkey : cfgKeyLen o.cfg = 16 ∨ cfgKeyLen o.cfg = 32)
    (hnonce : cfgNonceLen o.cfg ≠ (cfgDialect o.cfg).nonceLen) : runInit o s = .error .invalidNonceLength := by
  rw [runInit, if_neg (by tauto), if_pos hnonce]

/-- Settles O37: the three outcomes of INIT's run, and the template's words read back from KEY and NONCE. -/
theorem initBuildsTheTemplate : Obligations.InitBuildsTheTemplate := by
  refine ⟨decode_encode .init, fun s => ?_⟩
  dsimp only
  rw [← cfgKeyLen_eq, ← cfgNonceLen_eq, ← nonceLen_cfgDialect]
  refine ⟨fun hkey hnonce => ?built, fun h16 h32 => ?badKey, fun hkey hnonce => ?badNonce⟩
  case built =>
    have hrun := (runInit_eq_ok_iff s.operands s _).2 ⟨hkey, hnonce, rfl⟩
    obtain ⟨hrow, hwords, hcounter⟩ :=
      buildTemplateState_words s.operands.keyBytes s.operands.nonceBytes (cfgDialect s.operands.cfg)
    obtain ⟨hietf, hdjb⟩ := buildTemplateState_nonceBytes s.operands s.operands.keyBytes _ hnonce
    rw [length_keyBytes s.operands (by omega)] at hrow
    exact ⟨_, exec_of_runOf_ok .init s _ hrun, hrow, fun n => (hwords n).trans (keyWord_keyBytes _ hkey n), hcounter,
      hietf, hdjb, rfl⟩
  case badKey => exact exec_of_runOf_error .init s _ (runInit_badKeyLen _ s h16 h32)
  case badNonce => exact exec_of_runOf_error .init s _ (runInit_badNonceLen _ s hkey hnonce)

/-! ### LDCTR -/

/-- R137: LDCTR without a template. -/
theorem runLdctr_noTemplate (o : Operands) (s : State) (hvalid : o.tvalid = false) :
    runLdctr o s = .error .templateNotBuilt := if_pos hvalid

/-- R136, R137: LDCTR with a start counter too wide for the dialect. -/
theorem runLdctr_overflow (o : Operands) (s : State) (hvalid : o.tvalid = true)
    (hwide : counterLimit o.tdialect ≤ o.startCounter) : runLdctr o s = .error .counterOverflow := by
  rw [counterLimit_eq] at hwide
  rw [runLdctr, if_neg (by simp [hvalid]), setCounter, if_pos hwide]

/-- R136, R137: LDCTR with a template and a start counter that fits. -/
theorem runLdctr_ok (o : Operands) (s : State) (hvalid : o.tvalid = true)
    (hfits : o.startCounter < counterLimit o.tdialect) : runLdctr o s = .ok { s with
      x := counterBlock o.tmpl o.startCounter o.tdialect, orig := counterBlock o.tmpl o.startCounter o.tdialect } := by
  rw [counterLimit_eq] at hfits
  rw [runLdctr, if_neg (by simp [hvalid]), setCounter, if_neg (by omega)]

/-- R136: the words of a template with the counter words set, the low half in word 12. -/
theorem counterBlock_words (b : Block) (c : Nat) (d : Dialect) (hfits : c < counterLimit d) :
    (counterBlock b c d)[12].toNat = c % 2 ^ 32 ∧
    (d = .djb → (counterBlock b c d)[13].toNat = c / 2 ^ 32) ∧
    (d = .ietf → (counterBlock b c d)[13] = b[13]) ∧
    (∀ i : Fin 16, i ≠ 12 → i ≠ 13 → (counterBlock b c d)[i] = b[i]) := by
  cases d with
  | ietf =>
    refine ⟨by simp [counterBlock], by rintro ⟨⟩, fun _ => by simp [counterBlock], fun i h12 _ => ?_⟩
    have hne : 12 ≠ i.val := fun h => h12 (Fin.ext h.symm)
    simp [counterBlock, hne]
  | djb =>
    have hhigh : c / 2 ^ 32 < 2 ^ 32 := by simp only [counterLimit] at hfits; omega
    refine ⟨by simp [counterBlock], fun _ => ?_, by rintro ⟨⟩, fun i h12 h13 => ?_⟩
    · simpa [counterBlock] using hhigh
    · have hne12 : 12 ≠ i.val := fun h => h12 (Fin.ext h.symm)
      have hne13 : 13 ≠ i.val := fun h => h13 (Fin.ext h.symm)
      simp [counterBlock, hne12, hne13]

/-- Settles O39: the three outcomes of LDCTR's run, and the words of the block it loads. -/
theorem ldctrLoadsTheBlockState : Obligations.LdctrLoadsTheBlockState := by
  refine ⟨decode_encode .ldctr, fun s c hc => ?_⟩
  obtain rfl := startCounter_eq _ c hc
  refine ⟨fun hvalid hfits => ?loaded, fun hvalid => ?noTemplate, fun hvalid hwide => ?overflow⟩
  case loaded =>
    obtain ⟨hlow, hhigh, hnonce, hrest⟩ := counterBlock_words s.operands.tmpl _ s.operands.tdialect hfits
    exact ⟨_, exec_of_runOf_ok .ldctr s _ (runLdctr_ok _ s hvalid hfits), rfl, hlow, hhigh, hnonce, hrest, rfl⟩
  case noTemplate => exact exec_of_runOf_error .ldctr s _ (runLdctr_noTemplate _ s hvalid)
  case overflow => exact exec_of_runOf_error .ldctr s _ (runLdctr_overflow _ s hvalid hwide)

end Sys2Proof.Machine
end

section
/-! SUPPORT. ARX mixing (spec 41_arx_mixing): rotation as a number and bit by bit, and the rounds as quarterrounds on
pairwise disjoint groups of state words. -/

namespace Sys2Proof.Machine

/-! ### Rotation and the quarterround -/

/-- R150: the two shifted parts of a rotation share no bit, so joining them is adding them. -/
theorem rotl32_eq_add (x : Word) (r : Nat) : rotl32 x r = x <<< r + x >>> (32 - r) := by
  rw [rotl32, BitVec.add_eq_or_of_and_eq_zero]
  ext i hi
  obtain hlow | hhigh := Nat.lt_or_ge i r
  · simp [hlow]
  · have hout : x.getLsbD (32 - r + i) = false := BitVec.getLsbD_of_ge _ _ (by omega)
    simp [hout]

/-- Settles O30: the sum of the two shifted parts as a number, the library's rotation bit by bit. -/
theorem rotl32IsCircularLeftRotation : Obligations.Rotl32IsCircularLeftRotation := by
  intro x r hmin hmax
  constructor
  · rw [rotl32_eq_add, BitVec.toNat_add, BitVec.toNat_shiftLeft, BitVec.toNat_ushiftRight, Nat.shiftLeft_eq,
      Nat.shiftRight_eq_div_pow, Nat.mod_add_mod]
  · intro i hi
    rw [rotl32_eq_rotateLeft x r (by omega), BitVec.getLsbD_rotateLeft, Nat.mod_eq_of_lt (show r < 32 by omega)]
    obtain hlow | hhigh := Nat.lt_or_ge i r
    · have hindex : (i + (32 - r)) % 32 = 32 - r + i := by omega
      simp [hlow, hindex]
    · have hindex : (i + (32 - r)) % 32 = i - r := by omega
      simp [Nat.not_lt.2 hhigh, hi, hindex]

/-- Settles O31: each of the four steps with the library's rotation. -/
theorem quarterroundIsTheFourArxSteps : Obligations.QuarterroundIsTheFourArxSteps := by
  intro a b c d
  simp only [quarterround, arxStep, rotl32_eq_rotateLeft _ 16 (by omega), rotl32_eq_rotateLeft _ 12 (by omega),
    rotl32_eq_rotateLeft _ 8 (by omega), rotl32_eq_rotateLeft _ 7 (by omega)]

/-! ### Quarterrounds on groups of state words -/

/-- The four state indices of a group. -/
def Group.indices (g : Group) : List (Fin 16) := [g.1, g.2.1, g.2.2.1, g.2.2.2]

/-- The quarterround on the words of a group. -/
def mixGroup (s : Block) (g : Group) : Block := quarterroundAt s g.1 g.2.1 g.2.2.1 g.2.2.2

/-- The groups name no word twice: each has four different indices, and no two of them share one. -/
def DisjointGroups (gs : List Group) : Prop := (gs.flatMap Group.indices).Nodup

theorem DisjointGroups.pairwise {gs : List Group} (h : DisjointGroups gs) :
    gs.Pairwise fun g h => g.indices.Disjoint h.indices := (List.nodup_flatMap.1 h).2

theorem disjointGroups_cons (g : Group) (gs : List Group) : DisjointGroups (g :: gs) ↔
    g.indices.Nodup ∧ DisjointGroups gs ∧ g.indices.Disjoint (gs.flatMap Group.indices) := List.nodup_append'

theorem columns_disjoint : DisjointGroups columns := by unfold DisjointGroups; decide
theorem diagonals_disjoint : DisjointGroups diagonals := by unfold DisjointGroups; decide

/-- R153: a column round is the quarterrounds of the columns, in order. -/
theorem colRound_eq_foldl (s : Block) : colRound s = columns.foldl mixGroup s := rfl

/-- R155: a diagonal round is the quarterrounds of the diagonals, in order. -/
theorem diagRound_eq_foldl (s : Block) : diagRound s = diagonals.foldl mixGroup s := rfl

/-- R157: quarterrounds of disjoint groups commute. -/
theorem mixGroup_comm (s : Block) (g h : Group) (hdisj : g.indices.Disjoint h.indices) :
    mixGroup (mixGroup s g) h = mixGroup (mixGroup s h) g :=
  quarterroundAt_comm s _ _ _ _ _ _ _ _ fun _ hi _ hj heq => hdisj hi (heq ▸ hj)

/-- A word outside the group is unchanged. -/
theorem getElem_mixGroup_of_notMem (s : Block) (g : Group) (i : Fin 16) (hi : i ∉ g.indices) :
    (mixGroup s g)[i] = s[i] := by
  simp only [Group.indices, List.mem_cons, List.not_mem_nil, or_false, not_or] at hi
  obtain ⟨ha, hb, hc, hd⟩ := hi
  exact getElem_quarterroundAt_of_ne s _ _ _ _ i ha hb hc hd

/-- A word outside all of the groups is unchanged. -/
theorem getElem_foldl_mixGroup_of_notMem (gs : List Group) (s : Block) (i : Fin 16) (hi : i ∉ gs.flatMap Group.indices) :
    (gs.foldl mixGroup s)[i] = s[i] := by
  induction gs generalizing s with
  | nil => rfl
  | cons g gs ih =>
    rw [List.flatMap_cons, List.mem_append, not_or] at hi
    obtain ⟨hg, hgs⟩ := hi
    rw [List.foldl_cons, ih _ hgs, getElem_mixGroup_of_notMem s g i hg]

/-- R157: disjoint groups may be mixed in any order. -/
theorem foldl_mixGroup_perm (s : Block) (gs hs : List Group) (hperm : gs.Perm hs) (hdisj : DisjointGroups hs) :
    gs.foldl mixGroup s = hs.foldl mixGroup s := by
  have hsymm : Std.Symm fun g h : Group => g.indices.Disjoint h.indices := ⟨fun _ _ hd => List.Disjoint.symm hd⟩
  refine (hperm.symm.foldl_eq' (fun g hg h hh x => ?_) s).symm
  by_cases heq : g = h
  · rw [heq]
  · exact mixGroup_comm x g h (hdisj.pairwise.forall hg hh heq)

/-- Settles O32: each round is the quarterrounds of disjoint groups. -/
theorem roundsDoNotDependOnTheOrderOfTheirQuarterrounds :
    Obligations.RoundsDoNotDependOnTheOrderOfTheirQuarterrounds := by
  intro s gs
  exact ⟨fun hperm => foldl_mixGroup_perm s gs columns hperm columns_disjoint,
    fun hperm => foldl_mixGroup_perm s gs diagonals hperm diagonals_disjoint⟩

/-! ### Every group of a round is mixed -/

/-- What the mixing of a group says is about the words of the group alone. -/
theorem GroupMixed.congr {x y x' y' : Block} {g : Group} (hmixed : GroupMixed x x' g)
    (hx : ∀ i ∈ g.indices, y[i] = x[i]) (hx' : ∀ i ∈ g.indices, y'[i] = x'[i]) : GroupMixed y y' g := by
  simp only [Group.indices, List.forall_mem_cons] at hx hx'
  obtain ⟨ha, hb, hc, hd, -⟩ := hx
  obtain ⟨ha', hb', hc', hd', -⟩ := hx'
  rwa [GroupMixed, ha, hb, hc, hd, ha', hb', hc', hd']

/-- R152: the quarterround of a group of four different words. -/
theorem groupMixed_mixGroup (s : Block) (g : Group) (hnodup : g.indices.Nodup) : GroupMixed s (mixGroup s g) g := by
  obtain ⟨a, b, c, d⟩ := g
  simp only [Group.indices, List.nodup_cons, List.mem_cons, List.not_mem_nil, or_false, not_or] at hnodup
  obtain ⟨⟨hab, hac, had⟩, ⟨hbc, hbd⟩, hcd, -⟩ := hnodup
  simp only [GroupMixed, mixGroup, getElem_quarterroundAt, hab, hac, had, hbc, hbd, hcd, if_true, if_false]

/-- R153, R155: disjoint groups mixed one after another are each mixed as if alone. -/
theorem groupMixed_foldl_mixGroup (gs : List Group) (s : Block) (hdisj : DisjointGroups gs) :
    ∀ g ∈ gs, GroupMixed s (gs.foldl mixGroup s) g := by
  induction gs generalizing s with
  | nil => exact List.forall_mem_nil _
  | cons h gs ih =>
    obtain ⟨hnodup, htail, hapart⟩ := (disjointGroups_cons h gs).1 hdisj
    refine List.forall_mem_cons.2 ⟨?first, fun g hg => ?later⟩
    case first =>
      exact (groupMixed_mixGroup s h hnodup).congr (fun _ _ => rfl)
        fun i hi => getElem_foldl_mixGroup_of_notMem gs _ i (hapart hi)
    case later =>
      have hunmixed (i : Fin 16) (hi : i ∈ g.indices) : i ∉ h.indices := fun hih =>
        hapart hih (List.mem_flatMap_of_mem hg hi)
      exact (ih (mixGroup s h) htail g hg).congr
        (fun i hi => (getElem_mixGroup_of_notMem s h i (hunmixed i hi)).symm) fun _ _ => rfl

/-- R153: each column is mixed. -/
theorem groupMixed_colRound (s : Block) : ∀ g ∈ columns, GroupMixed s (colRound s) g :=
  colRound_eq_foldl s ▸ groupMixed_foldl_mixGroup columns s columns_disjoint

/-- R155: each diagonal is mixed. -/
theorem groupMixed_diagRound (s : Block) : ∀ g ∈ diagonals, GroupMixed s (diagRound s) g :=
  diagRound_eq_foldl s ▸ groupMixed_foldl_mixGroup diagonals s diagonals_disjoint

/-! ### QR, COLR and DIAGR -/

/-- Settles O40: the word's fields are the decoder's, and QR's run writes X alone, word by word as R152 says. -/
theorem qrMixesTheFourChosenWords : Obligations.QrMixesTheFourChosenWords := by
  refine ⟨fun w hmask => ?decoded, fun s qa qb qc qd => ?mixed⟩
  case decoded =>
    obtain ⟨hlo, hhi⟩ := (qr_mask_iff w).1 hmask
    exact decode_qr_word w hlo hhi
  case mixed =>
    exact ⟨_, exec_of_runOf_ok (.qr qa qb qc qd) s _ rfl, getElem_quarterroundAt s.operands.x qa qb qc qd, rfl⟩

/-- Settles O41: COLR's run writes X alone, the column round of the operands' X. -/
theorem colrMixesEveryColumn : Obligations.ColrMixesEveryColumn :=
  ⟨decode_encode .colr, fun s => ⟨_, exec_of_runOf_ok .colr s _ rfl, groupMixed_colRound s.operands.x, rfl⟩⟩

/-- Settles O42: DIAGR's run writes X alone, the diagonal round of the operands' X. -/
theorem diagrMixesEveryDiagonal : Obligations.DiagrMixesEveryDiagonal :=
  ⟨decode_encode .diagr, fun s => ⟨_, exec_of_runOf_ok .diagr s _ rfl, groupMixed_diagRound s.operands.x, rfl⟩⟩

end Sys2Proof.Machine
end

section
/-! SUPPORT. The hash function (spec 42_hash): FFWD and HASH in each of their cases, the hash of the zero state, and the
single-step sequence, command by command, beside HASH. -/

namespace Sys2Proof.Machine

/-! ### The hash of the zero state -/

/-- 90_conflicts C6: sums, exclusive ors and rotations of zero words are zero, on whichever words of the state. -/
theorem quarterroundAt_zero (a b c d : Fin 16) :
    quarterroundAt (Vector.replicate 16 0) a b c d = Vector.replicate 16 0 := by
  have hquarter : quarterround 0 0 0 0 = (0, 0, 0, 0) := by decide
  have hword (i : Fin 16) : (Vector.replicate 16 0 : Block)[i] = 0 := Vector.getElem_replicate i.isLt
  apply Block.ext_fin
  intro i
  simp only [getElem_quarterroundAt, hword, hquarter, ite_self]

/-- Quarterrounds of any groups leave the zero state as it is. -/
theorem foldl_mixGroup_zero (gs : List Group) :
    gs.foldl mixGroup (Vector.replicate 16 0) = Vector.replicate 16 0 :=
  List.foldl_fixed' (fun g => quarterroundAt_zero g.1 g.2.1 g.2.2.1 g.2.2.2) gs

/-- 90_conflicts C6: the zero state is a fixed point of the double round. -/
theorem doubleRound_zero : doubleRound (Vector.replicate 16 0) = Vector.replicate 16 0 := by
  rw [doubleRound, colRound_eq_foldl, foldl_mixGroup_zero, diagRound_eq_foldl, foldl_mixGroup_zero]

/-- R170: a word of the hash is the sum of the mixed word and the input's. -/
theorem getElem_chachaHash (s : Block) (r : Nat) (i : Fin 16) :
    (chachaHash s r)[i] = (doubleRound^[r / 2] s)[i] + s[i] := by
  rw [← doubleRounds_eq_iterate]
  exact getElem_feedForward _ _ i i.isLt

/-- Settles O34: every double round keeps the zero state, and the feed-forward adds zero to it. -/
theorem zeroStateHashesToZero : Obligations.ZeroStateHashesToZero := by
  intro r
  apply Block.ext_fin
  intro i
  rw [getElem_chachaHash, Function.iterate_fixed doubleRound_zero]
  simp

/-! ### FFWD and HASH -/

/-- Settles O43: FFWD's run writes X alone, the feed-forward of the operands. -/
theorem ffwdAddsTheOriginalState : Obligations.FfwdAddsTheOriginalState := by
  refine ⟨decode_encode .ffwd, fun s => ⟨_, exec_of_runOf_ok .ffwd s _ rfl, fun i => ?_, rfl⟩⟩
  have hsum : (feedForward s.operands.x s.operands.orig)[i] = s.operands.x[i] + s.operands.orig[i] :=
    getElem_feedForward _ _ i i.isLt
  exact (congrArg BitVec.toNat hsum).trans (BitVec.toNat_add _ _)

/-- R172: HASH on a legal round count. -/
theorem runHash_ok (o : Operands) (s : State) (hrounds : roundsLegal (cfgRounds o.cfg) = true) :
    runHash o s = .ok { s with orig := o.x, x := chachaHash o.x (cfgRounds o.cfg) } := by
  rw [runHash, if_neg (by simp [hrounds])]

/-- R172: HASH's check. -/
theorem runHash_badRounds (o : Operands) (s : State) (hrounds : roundsLegal (cfgRounds o.cfg) = false) :
    runHash o s = .error .invalidRoundsValue := if_pos hrounds

/-- Settles O44: the two outcomes of HASH's run, and the hash word by word. -/
theorem hashIsDoubleRoundsAndFeedForward : Obligations.HashIsDoubleRoundsAndFeedForward := by
  refine ⟨decode_encode .hash, fun s => ?_⟩
  dsimp only
  rw [← cfgRounds_eq]
  refine ⟨fun hzero heven => ?hashed, fun hbad => ?badRounds⟩
  case hashed =>
    have hrun := runHash_ok s.operands s ((roundsLegal_iff _).2 ⟨hzero, heven⟩)
    exact ⟨_, exec_of_runOf_ok .hash s _ hrun, rfl, getElem_chachaHash s.operands.x _, rfl⟩
  case badRounds =>
    have hillegal : roundsLegal (cfgRounds s.operands.cfg) = false := by
      rw [← Bool.not_eq_true, roundsLegal_iff]
      omega
    exact exec_of_runOf_error .hash s _ (runHash_badRounds _ s hillegal)

/-! ### Commands one after another -/

theorem execAll_cons (i : Instr) (is : List Instr) (s t : State) (h : exec i s = .next t) :
    execAll (i :: is) s = execAll is t := by
  rw [execAll, h]

theorem execAll_append (is js : List Instr) (s t : State) (h : execAll is s = .next t) :
    execAll (is ++ js) s = execAll js t := by
  induction is generalizing s with
  | nil => cases h; rfl
  | cons i is ih =>
    obtain ⟨u, hu⟩ := exec_next i s
    rw [execAll_cons i is s u hu] at h
    rw [List.cons_append, execAll_cons i (is ++ js) s u hu, ih u h]

/-! ### The single steps of a hash

After a completion no command is in flight, so the next command runs on the registers as the one before left them. -/

/-- R117: a DROUND is a double round of X. -/
theorem execAll_dround (v : State) :
    execAll Pseudo.dround.expand (v.completed none) = .next ({ v with x := doubleRound v.x }.completed none) := rfl

/-- R158, R173: `n` DROUNDs are `n` double rounds of X. -/
theorem execAll_drounds (n : Nat) (v : State) :
    execAll (List.replicate n Pseudo.dround.expand).flatten (v.completed none) =
      .next ({ v with x := doubleRounds n v.x }.completed none) := by
  induction n generalizing v with
  | zero => rfl
  | succ n ih =>
    rw [List.replicate_succ, List.flatten_cons, execAll_append _ _ _ _ (execAll_dround v)]
    exact ih { v with x := doubleRound v.x }

/-- R173: where X is ORIG, the double rounds of `r/2` DROUNDs and the feed-forward of FFWD leave ORIG's hash in X. -/
theorem execAll_drounds_ffwd (v : State) (r : Nat) (hx : v.x = v.orig) :
    execAll ((List.replicate (r / 2) Pseudo.dround.expand).flatten ++ [.ffwd]) (v.completed none) =
      .next ({ v with x := chachaHash v.orig r }.completed none) := by
  rw [execAll_append _ _ _ _ (execAll_drounds (r / 2) v), hx]
  rfl

/-- R172: where X is ORIG, HASH on a legal round count leaves ORIG's hash in X, and ORIG as it is. -/
theorem exec_hash_completed (v : State) (hrounds : roundsLegal (cfgRounds v.cfg) = true) (hx : v.x = v.orig) :
    exec .hash (v.completed none) = .next ({ v with x := chachaHash v.orig (cfgRounds v.cfg) }.completed none) := by
  have hinput : (v.completed none).operands.x = v.orig := hx
  rw [exec_of_runOf_ok .hash _ _ (runHash_ok (v.completed none).operands (v.completed none) hrounds), hinput]
  rfl

/-- R137: LDCTR, where it succeeds, completes with X and ORIG equal. -/
theorem exec_ldctr_ok (s : State) (hvalid : s.operands.tvalid = true)
    (hfits : s.operands.startCounter < 2 ^ s.operands.tdialect.counterBits) :
    ∃ v : State, exec .ldctr s = .next (v.completed none) ∧ v.x = v.orig ∧ v.cfg = s.cfg :=
  ⟨_, exec_of_runOf_ok .ldctr s _ (runLdctr_ok s.operands s hvalid (counterLimit_eq _ ▸ hfits)), rfl, rfl⟩

/-- Settles O49: both sequences run LDCTR first, and both then leave in X the hash of the ORIG it loads. -/
theorem singleStepsEqualHash : Obligations.SingleStepsEqualHash := by
  intro s hvalid hfits hrounds
  obtain ⟨v, hldctr, hx, hcfg⟩ := exec_ldctr_ok s hvalid hfits
  rw [← hcfg] at hrounds ⊢
  refine ⟨{ v with x := chachaHash v.orig (cfgRounds v.cfg) }.completed none, ?hash, ?steps⟩
  case hash =>
    rw [execAll_cons _ _ _ _ hldctr, execAll_cons _ _ _ _ (exec_hash_completed v hrounds hx), execAll]
  case steps =>
    rw [List.append_assoc, List.singleton_append, execAll_cons _ _ _ _ hldctr]
    exact execAll_drounds_ffwd v _ hx

end Sys2Proof.Machine
end

section
/-! SUPPORT. The keystream generator and XOR engine (spec 43_keystream_xor): the keystream of a message, the document's
encryptOrDecrypt by its one check, and CRYPT in each of its cases. -/

namespace Sys2Proof.Machine

/-! ### The keystream -/

/-- The keystream bytes of `n` blocks from counter `sc` on, as `encryptOrDecrypt` concatenates them (R181). -/
def keystream (t : Block) (sc : Nat) (d : Dialect) (r n : Nat) : List Byte :=
  (List.range n).flatMap fun b => keystreamBlock t (sc + b) d r

/-- The keystream byte that R181 and R182 XOR into byte `a` of the message. -/
def keystreamByte (t : Block) (sc : Nat) (d : Dialect) (r a : Nat) : Byte :=
  ((keystreamBlock t (sc + a / 64) d r)[a % 64]?).getD 0

@[simp] theorem length_keystreamBlock (t : Block) (c : Nat) (d : Dialect) (r : Nat) :
    (keystreamBlock t c d r).length = 64 := length_serLE _

theorem keystream_succ (t : Block) (sc : Nat) (d : Dialect) (r n : Nat) :
    keystream t sc d r (n + 1) = keystream t sc d r n ++ keystreamBlock t (sc + n) d r := by
  simp [keystream, List.range_succ]

/-- R185: the blocks from the `m`-th on are the keystream of the counter `m` further on. -/
theorem keystream_add (t : Block) (sc : Nat) (d : Dialect) (r m n : Nat) :
    keystream t sc d r (m + n) = keystream t sc d r m ++ keystream t (sc + m) d r n := by
  induction n with
  | zero => simp [keystream]
  | succ n ih => rw [← Nat.add_assoc, keystream_succ, ih, keystream_succ, List.append_assoc, Nat.add_assoc]

@[simp] theorem length_keystream (t : Block) (sc : Nat) (d : Dialect) (r n : Nat) :
    (keystream t sc d r n).length = 64 * n := by
  induction n with
  | zero => rfl
  | succ n ih => rw [keystream_succ, List.length_append, ih, length_keystreamBlock, Nat.mul_succ]

theorem getElem?_keystreamBlock (t : Block) (sc : Nat) (d : Dialect) (r a : Nat) :
    (keystreamBlock t (sc + a / 64) d r)[a % 64]? = some (keystreamByte t sc d r a) := by
  have hin : a % 64 < (keystreamBlock t (sc + a / 64) d r).length := by rw [length_keystreamBlock]; omega
  rw [keystreamByte, List.getElem?_eq_getElem hin, Option.getD_some]

theorem getElem?_keystream (t : Block) (sc : Nat) (d : Dialect) (r n a : Nat) (ha : a < 64 * n) :
    (keystream t sc d r n)[a]? = some (keystreamByte t sc d r a) := by
  induction n with
  | zero => omega
  | succ n ih =>
    rw [keystream_succ]
    obtain hbefore | hlast := Nat.lt_or_ge a (64 * n)
    · rw [List.getElem?_append_left (by simpa using hbefore), ih hbefore]
    · have hblock : n = a / 64 := by omega
      have hbyte : a - 64 * n = a % 64 := by omega
      rw [List.getElem?_append_right (by simpa using hlast), length_keystream, hbyte, hblock, getElem?_keystreamBlock]

/-! ### The document's function -/

theorem blocksNeeded_of_multiple (len : Nat) (h : len % 64 = 0) : blocksNeeded len = len / 64 := by
  rw [blocksNeeded]; omega

theorem blocksNeeded_add (m n : Nat) (h : m % 64 = 0) : blocksNeeded (m + n) = m / 64 + blocksNeeded n := by
  rw [blocksNeeded, blocksNeeded]; omega

theorem blocksNeeded_eq_zero_iff (len : Nat) : blocksNeeded len = 0 ↔ len = 0 := by
  rw [blocksNeeded]; omega

/-- The last block of a message is the one that holds its last byte. -/
theorem blocksNeeded_of_pos (len : Nat) (h : 0 < len) : blocksNeeded len = (len - 1) / 64 + 1 := by
  rw [blocksNeeded]; omega

/-- R181, R182: some block of `n` from counter `sc` on has a counter too wide for the dialect. -/
abbrev CounterOverflows (d : Dialect) (sc n : Nat) : Prop := 0 < n ∧ 2 ^ d.counterBits ≤ sc + n - 1

/-- R181's check of every block is R182's check of the last one. -/
theorem counterOverflows_iff (d : Dialect) (sc n : Nat) :
    CounterOverflows d sc n ↔ ∃ b < n, sc + b > 2 ^ d.counterBits - 1 := by
  have hpos : 0 < 2 ^ d.counterBits := Nat.two_pow_pos _
  constructor
  · rintro ⟨hn, hlast⟩; exact ⟨n - 1, by omega, by omega⟩
  · rintro ⟨b, hb, hwide⟩; exact ⟨by omega, by omega⟩

/-- R184: the last block a message needs decides. -/
theorem counterOverflows_blocksNeeded_iff (d : Dialect) (sc len : Nat) :
    CounterOverflows d sc (blocksNeeded len) ↔ 0 < len ∧ counterLimit d ≤ sc + (len - 1) / 64 := by
  rw [CounterOverflows, counterLimit_eq, Nat.pos_iff_ne_zero, Nat.pos_iff_ne_zero, Ne, blocksNeeded_eq_zero_iff]
  refine and_congr_right fun hlen => ?_
  rw [blocksNeeded_of_pos _ (Nat.pos_of_ne_zero hlen), ← Nat.add_assoc, Nat.add_sub_cancel]

theorem encryptOrDecrypt_eq (data : List Byte) (t : Block) (sc r : Nat) (d : Dialect) :
    encryptOrDecrypt data t sc r d =
      if CounterOverflows d sc (blocksNeeded data.length) then .error .counterOverflow
      else .ok (List.zipWith (· ^^^ ·) data (keystream t sc d r (blocksNeeded data.length))) := by
  simp only [encryptOrDecrypt, keystream, counterOverflows_iff, List.any_eq_true, List.mem_range, decide_eq_true_eq]

theorem encryptOrDecrypt_eq_ok_iff (data out : List Byte) (t : Block) (sc r : Nat) (d : Dialect) :
    encryptOrDecrypt data t sc r d = .ok out ↔
      ¬ CounterOverflows d sc (blocksNeeded data.length) ∧
      out = List.zipWith (· ^^^ ·) data (keystream t sc d r (blocksNeeded data.length)) := by
  rw [encryptOrDecrypt_eq]
  split
  · next hover => simp [hover]
  · next hfits => simp only [Except.ok.injEq, hfits, not_false_eq_true, true_and]; exact eq_comm

/-- Settles O36: the keystream of the whole is the first chunk's followed by the second's. -/
theorem encryptionMayBeChunked : Obligations.EncryptionMayBeChunked := by
  intro m₁ m₂ c₁ c₂ t sc r d hmultiple h₁ h₂
  rw [encryptOrDecrypt_eq_ok_iff, blocksNeeded_of_multiple _ hmultiple] at h₁
  rw [encryptOrDecrypt_eq_ok_iff] at h₂ ⊢
  obtain ⟨hfits₁, rfl⟩ := h₁
  obtain ⟨hfits₂, rfl⟩ := h₂
  have hwhole : m₁.length = (keystream t sc d r (m₁.length / 64)).length := by rw [length_keystream]; omega
  rw [List.length_append, blocksNeeded_add _ _ hmultiple, keystream_add, List.zipWith_append hwhole]
  exact ⟨by omega, rfl⟩

/-! ### CRYPT's outcomes -/

/-- R182: CRYPT's four checks pass. -/
abbrev CryptPasses (o : Operands) (msgBytes : Nat) : Prop :=
  o.tvalid = true ∧ roundsLegal (cfgRounds o.cfg) = true ∧ o.len.toNat ≤ msgBytes ∧
    ¬ CounterOverflows o.tdialect o.startCounter (blocksNeeded o.len.toNat)

/-- What CRYPT's loop leaves in ORIG, X and MSG (R182). -/
def cryptWork (o : Operands) (s : State) : BlockWork :=
  cryptBlocks o.tmpl o.tdialect (cfgRounds o.cfg) o.startCounter o.len.toNat (blocksNeeded o.len.toNat) 0
    { orig := s.orig, x := s.x, msg := s.msg }

/-- The state with CRYPT's writes. -/
def cryptWrites (o : Operands) (s : State) : State :=
  { s with orig := (cryptWork o s).orig, x := (cryptWork o s).x, msg := (cryptWork o s).msg }

/-- R182: CRYPT succeeds exactly when its checks pass, with its loop's writes. -/
theorem runCrypt_eq_ok_iff (o : Operands) (s t : State) :
    runCrypt o s = .ok t ↔ CryptPasses o s.params.msgBytes ∧ t = cryptWrites o s := by
  constructor
  · intro h
    simp only [runCrypt] at h
    split at h; · cases h
    next hvalid =>
    split at h; · cases h
    next hrounds =>
    split at h; · cases h
    next hlen =>
    split at h; · cases h
    next hcounter =>
    cases h
    exact ⟨⟨by simpa using hvalid, by simpa using hrounds, Nat.le_of_not_lt hlen, hcounter⟩, rfl⟩
  · rintro ⟨⟨hvalid, hrounds, hlen, hcounter⟩, rfl⟩
    exact runCrypt_ok o s hvalid hrounds hlen hcounter

/-- R202: CRYPT's last check. -/
theorem runCrypt_overflow (o : Operands) (s : State) (hvalid : o.tvalid = true)
    (hrounds : roundsLegal (cfgRounds o.cfg) = true) (hlen : o.len.toNat ≤ s.params.msgBytes)
    (hover : CounterOverflows o.tdialect o.startCounter (blocksNeeded o.len.toNat)) :
    runCrypt o s = .error .counterOverflow := by
  rw [runCrypt]
  dsimp only
  rw [if_neg (by simp [hvalid]), if_neg (by simp [hrounds]), if_neg (by omega), if_pos hover]

/-! ### CRYPT's writes -/

/-- R182: a byte of the message is XORed with its keystream byte. -/
theorem read_cryptWork_of_lt (o : Operands) (s : State) (a : Nat) (ha : a < o.len.toNat) :
    (cryptWork o s).msg.read a =
      s.msg.read a ^^^ keystreamByte o.tmpl o.startCounter o.tdialect (cfgRounds o.cfg) a := by
  have hblocks : a < 64 * (0 + blocksNeeded o.len.toNat) := by rw [blocksNeeded]; omega
  rw [cryptWork, read_cryptBlocks, if_pos ⟨by omega, hblocks, ha⟩, keystreamByte]

/-- R182: a byte past the message stays. -/
theorem read_cryptWork_of_ge (o : Operands) (s : State) (a : Nat) (ha : o.len.toNat ≤ a) :
    (cryptWork o s).msg.read a = s.msg.read a := by
  rw [cryptWork, read_cryptBlocks, if_neg (by omega)]

/-- R182, D28: after a message that is not empty, ORIG and X are the last block's. -/
theorem cryptWork_last (o : Operands) (s : State) (hlen : 0 < o.len.toNat) :
    (cryptWork o s).orig = counterBlock o.tmpl (o.startCounter + (o.len.toNat - 1) / 64) o.tdialect ∧
    (cryptWork o s).x =
      chachaHash (counterBlock o.tmpl (o.startCounter + (o.len.toNat - 1) / 64) o.tdialect) (cfgRounds o.cfg) := by
  rw [cryptWork, blocksNeeded_of_pos _ hlen]
  exact cryptBlocks_last o.tmpl o.tdialect _ o.startCounter _ _ 0 _

/-- R182, D29: an empty message leaves everything. -/
theorem cryptWork_empty (o : Operands) (s : State) (hlen : o.len.toNat = 0) :
    cryptWork o s = { orig := s.orig, x := s.x, msg := s.msg } := by
  rw [cryptWork, (blocksNeeded_eq_zero_iff _).2 hlen, cryptBlocks]

/-- Settles O45: CRYPT's checks pass, and its writes are read off byte by byte. -/
theorem cryptXorsTheKeystreamIntoTheMessage : Obligations.CryptXorsTheKeystreamIntoTheMessage := by
  refine ⟨decode_encode .crypt, fun s sc => ?_⟩
  dsimp only
  rw [← cfgRounds_eq]
  intro hstart hvalid hzero heven hlen hfits
  obtain rfl := startCounter_eq s.operands sc hstart
  have hcounter : ¬ CounterOverflows s.operands.tdialect s.operands.startCounter
      (blocksNeeded s.operands.len.toNat) := by
    rw [counterOverflows_blocksNeeded_iff]
    exact fun ⟨hpos, hwide⟩ => Nat.not_lt.2 hwide (hfits hpos)
  have hrounds : roundsLegal (cfgRounds s.operands.cfg) = true := (roundsLegal_iff _).2 ⟨hzero, heven⟩
  have hrun := (runCrypt_eq_ok_iff s.operands s _).2 ⟨⟨hvalid, hrounds, hlen, hcounter⟩, rfl⟩
  refine ⟨_, exec_of_runOf_ok .crypt s _ hrun, fun i hi => ?inside, read_cryptWork_of_ge s.operands s,
    cryptWork_last s.operands s, fun hempty => ?empty, rfl⟩
  case inside => exact ⟨_, getElem?_keystreamBlock _ _ _ _ i, read_cryptWork_of_lt s.operands s i hi⟩
  case empty =>
    have hwork := cryptWork_empty s.operands s hempty
    exact ⟨congrArg BlockWork.orig hwork, congrArg BlockWork.x hwork, congrArg BlockWork.msg hwork⟩

/-! ### CRYPT and the document's function -/

@[simp] theorem Memory.length_prefixBytes (m : Memory) (n : Nat) : (m.prefixBytes n).length = n := by
  rw [Memory.prefixBytes, List.length_map, List.length_range]

theorem Memory.getElem?_prefixBytes (m : Memory) (n a : Nat) (ha : a < n) :
    (m.prefixBytes n)[a]? = some (m.read a) := by
  rw [Memory.prefixBytes, List.getElem?_map, List.getElem?_range ha, Option.map_some]

/-- R182's last sentence: the message CRYPT leaves is the old one XORed with the keystream. -/
theorem prefixBytes_cryptWork (o : Operands) (s : State) :
    (cryptWork o s).msg.prefixBytes o.len.toNat =
      List.zipWith (· ^^^ ·) (s.msg.prefixBytes o.len.toNat)
        (keystream o.tmpl o.startCounter o.tdialect (cfgRounds o.cfg) (blocksNeeded o.len.toNat)) := by
  have hcover : o.len.toNat ≤ 64 * blocksNeeded o.len.toNat := by rw [blocksNeeded]; omega
  apply List.ext_getElem?
  intro a
  obtain ha | ha := Nat.lt_or_ge a o.len.toNat
  · rw [Memory.getElem?_prefixBytes _ _ _ ha, read_cryptWork_of_lt o s a ha, List.getElem?_zipWith,
      Memory.getElem?_prefixBytes _ _ _ ha, getElem?_keystream _ _ _ _ _ _ (by omega)]
  · rw [List.getElem?_eq_none (by simpa using ha), List.getElem?_eq_none (by simp [ha])]

/-- Settles O47: both make the one check that is left, of the counter, and write the same bytes. -/
theorem cryptIsEncryptOrDecryptOfTheMessage : Obligations.CryptIsEncryptOrDecryptOfTheMessage := by
  intro s
  dsimp only
  intro hvalid hrounds hlen
  rw [encryptOrDecrypt_eq, Memory.length_prefixBytes]
  by_cases hover : CounterOverflows s.operands.tdialect s.operands.startCounter (blocksNeeded s.operands.len.toNat)
  · rw [if_pos hover]
    exact ⟨_, exec_of_runOf_error .crypt s _ (runCrypt_overflow _ s hvalid hrounds hlen hover), rfl, rfl⟩
  · rw [if_neg hover]
    have hrun := (runCrypt_eq_ok_iff s.operands s _).2 ⟨⟨hvalid, hrounds, hlen, hover⟩, rfl⟩
    exact ⟨_, exec_of_runOf_ok .crypt s _ hrun, rfl, prefixBytes_cryptWork s.operands s⟩

/-! ### CRYPT twice -/

/-- What CRYPT XORs into byte `a` of MSG: the keystream byte where it succeeds and the message has that byte, else 0. -/
def cryptMask (o : Operands) (msgBytes a : Nat) : Byte :=
  if CryptPasses o msgBytes ∧ a < o.len.toNat then
    keystreamByte o.tmpl o.startCounter o.tdialect (cfgRounds o.cfg) a
  else 0#8

/-- R182: CRYPT, whether it succeeds or fails, XORs the mask of its operands into MSG. -/
theorem read_of_exec_crypt (s t : State) (h : exec .crypt s = .next t) (a : Nat) :
    t.msg.read a = s.msg.read a ^^^ cryptMask s.operands s.params.msgBytes a := by
  rw [cryptMask]
  obtain ⟨u, hrun, rfl⟩ | ⟨e, hrun, rfl⟩ := exec_cases .crypt s t h
  · obtain ⟨hpasses, rfl⟩ := (runCrypt_eq_ok_iff _ _ _).1 hrun
    obtain ha | ha := Nat.lt_or_ge a s.operands.len.toNat
    · rw [if_pos ⟨hpasses, ha⟩]
      exact read_cryptWork_of_lt _ s a ha
    · rw [if_neg (by omega), BitVec.xor_zero]
      exact read_cryptWork_of_ge _ s a ha
  · have hfails : ¬ CryptPasses s.operands s.params.msgBytes := fun hpasses => by
      cases hrun.symm.trans ((runCrypt_eq_ok_iff _ s _).2 ⟨hpasses, rfl⟩)
    rw [if_neg fun hin => hfails hin.1, BitVec.xor_zero, State.completed_msg]

/-- R182: CRYPT writes no parameter, and X and ORIG alone of the registers, so the next CRYPT's mask is its own. -/
theorem cryptMask_of_exec_crypt (s t : State) (hcapture : s.operands = s.capture) (h : exec .crypt s = .next t)
    (a : Nat) : cryptMask t.operands t.params.msgBytes a = cryptMask s.operands s.params.msgBytes a := by
  rw [hcapture]
  obtain ⟨u, hrun, rfl⟩ | ⟨e, -, rfl⟩ := exec_cases .crypt s t h
  · obtain ⟨-, rfl⟩ := (runCrypt_eq_ok_iff _ _ _).1 hrun
    rfl
  · rfl

/-- Settles O48: both runs XOR the same mask. -/
theorem cryptTwiceRestoresTheMessage : Obligations.CryptTwiceRestoresTheMessage := by
  intro s t u hcapture hfirst hsecond a
  rw [read_of_exec_crypt t u hsecond, read_of_exec_crypt s t hfirst, cryptMask_of_exec_crypt s t hcapture hfirst,
    BitVec.xor_assoc, BitVec.xor_self, BitVec.xor_zero]

end Sys2Proof.Machine
end

section
/-! SUPPORT. Exceptions and completion (spec 60_exceptions): the engine's turn and the step it takes (R201, R203, R204),
the interrupt (R210 to R212), and CRYPT's checks in R202's order. -/

namespace Sys2Proof.Machine

/-! ### The engine's turn -/

/-- R203: with nothing in flight the engine's turn changes nothing. -/
theorem engineTurn_of_pend_none (s : State) (hpend : s.pend = none) : engineTurn s = .next s := by
  simp only [engineTurn, hpend]

/-- R203: after the engine's turn nothing is in flight. -/
theorem pend_of_engineTurn (s u : State) (h : engineTurn s = .next u) : u.pend = none := by
  obtain ⟨hnone, rfl⟩ | ⟨p, i, t, -, -, -, rfl⟩ | ⟨p, e, -, rfl, -⟩ := engineTurn_cases s u h
  · exact hnone
  · rfl
  · rfl

/-- R201: an engine's turn that ends with an error is the completion with it, of the state as it was. -/
theorem engineTurn_of_err (s u : State) (e : CmdError) (hpend : s.pend ≠ none) (h : engineTurn s = .next u)
    (herr : u.status.err = some e) : u = s.completed (some e) := by
  obtain ⟨hnone, -⟩ | ⟨p, i, t, -, -, -, rfl⟩ | ⟨p, e', -, rfl, -⟩ := engineTurn_cases s u h
  · exact absurd hnone hpend
  · simp at herr
  · rw [State.completed_status, Status.completed_err] at herr
    rw [herr]

/-- Settles O13: of the outcomes of the engine's turn only the completion with an error leaves one. -/
theorem errorWritesOnlyCompletionFields : Obligations.ErrorWritesOnlyCompletionFields := by
  intro s t p e hpend h herr
  exact engineTurn_of_err s t e (by simp [hpend]) h herr

/-- Settles O14: the engine's turn answers, its answer is a completion, and WOVR is of what it does not touch. -/
theorem engineTurnAlwaysCompletes : Obligations.EngineTurnAlwaysCompletes := by
  refine ⟨fun s p hpend => ?completes, engineTurn_of_pend_none⟩
  case completes =>
    obtain ⟨t, ht⟩ := engineTurn_next s
    obtain ⟨hidle, hbusy, hdone⟩ := engineTurn_completes s t (by simp [hpend]) ht
    exact ⟨t, ht, hbusy, hdone, hidle, congrArg Side.wovr (side_of_engineTurn s t ht)⟩

/-! ### Steps -/

theorem step_next (s : State) : ∃ t, step s = .next t := takeTurn_next s.nextTurn s.afterTurn

/-- A step takes one slot (log 1) and leaves the parameters (log 5). -/
theorem step_schedule_params (s t : State) (h : step s = .next t) :
    t.schedule = s.schedule.tail ∧ t.params = s.params := by
  cases step_cases s t h with
  | quiet | error | message | dropped | reset => exact ⟨rfl, rfl⟩
  | success p i u _ _ _ hrun => rw [runOf_ok_frame _ _ _ _ hrun]; exact ⟨rfl, rfl⟩
  | register off v =>
    obtain ⟨hframe, -⟩ := writeReg_frame s.afterTurn v (Reg.ofOffset off)
    rw [hframe]; exact ⟨rfl, rfl⟩

/-- Settles O8: every turn answers, and no case of a step touches the slots to come or the parameters. -/
theorem everyStateHasANextState : Obligations.EveryStateHasANextState := by
  intro s
  obtain ⟨t, ht⟩ := step_next s
  exact ⟨t, ht, step_schedule_params s t ht⟩

/-- The engine's turn takes its slot off the schedule and moves no host (log 1). -/
theorem step_of_engine (s : State) (hturn : s.nextTurn = .engine) :
    step s = engineTurn { s with schedule := s.schedule.tail } := by
  rw [step, hturn, State.afterTurn, nextProgram_of_engine s hturn, takeTurn]

/-- Settles O6: a step of the engine's is its turn, and that turn runs the word in flight. -/
theorem stepRunsTheDecodedCommand : Obligations.StepRunsTheDecodedCommand := by
  refine ⟨fun s p i hturn hpend hword => ?inFlight, fun s w i hword => ?fetched⟩
  case inFlight =>
    rw [step_of_engine s hturn]
    exact engineTurn_of_command { s with schedule := s.schedule.tail } p hpend i hword
  case fetched =>
    rw [State.withFetchWord, BitVec.ofNat_toNat, BitVec.setWidth_eq, step_engine _ s.schedule rfl]
    exact engineTurn_of_command (s.issue w) _ rfl i hword

/-- R204: once the slots to come are taken the engine moves, and then nothing is in flight. -/
theorem run_past_schedule (slots : List Slot) (s : State) (hs : s.Inv) (hslots : s.schedule = slots) :
    ∃ t, core.run (slots.length + 1) s = .next t ∧ t.Inv ∧ t.pend = none := by
  induction slots generalizing s with
  | nil =>
    obtain ⟨t, ht⟩ := step_next s
    have hengine := (step_of_engine s (nextTurn_nil s hslots)).symm.trans ht
    exact ⟨t, core_run_of_step ht rfl, everyStepKeepsTheInvariant s t hs ht, pend_of_engineTurn _ t hengine⟩
  | cons slot rest ih =>
    obtain ⟨t, ht⟩ := step_next s
    obtain ⟨htail, -⟩ := step_schedule_params s t ht
    obtain ⟨u, hrun, hu⟩ := ih t (everyStepKeepsTheInvariant s t hs ht) (by rw [htail, hslots, List.tail_cons])
    exact ⟨u, core_run_of_step ht hrun, hu⟩

/-- Settles O9, by induction on the slots to come; BUSY is 0 by the invariant, PEND being none. -/
theorem everyIssuedCommandCompletes : Obligations.EveryIssuedCommandCompletes := by
  intro s hs
  obtain ⟨t, hrun, ht, hpend⟩ := run_past_schedule s.schedule s hs rfl
  exact ⟨t, hrun, hpend, by rw [ht.busy_pend, hpend, Option.isSome_none]⟩

/-! ### The interrupt -/

/-- R212: a step that sets DONE is a completion. -/
theorem step_sets_done (s t : State) (h : step s = .next t) (hold : s.status.done = false)
    (hnew : t.status.done = true) : s.nextTurn = .engine ∧ s.pend ≠ none := by
  cases step_cases s t h with
  | quiet | message | dropped => simp [hold] at hnew
  | success _ _ _ hturn hpend | error _ _ hturn hpend => exact ⟨hturn, by simp [hpend]⟩
  | register off v =>
    have hset := writeReg_done s.afterTurn v _ hnew
    simp [hold] at hset
  | reset => cases hnew

/-- Settles O18: STATUS bit 1 is DONE, a step sets DONE by a completion alone, and STATUS's register write clears it. -/
theorem interruptIsDoneAndOnlyCompletionSetsDone : Obligations.InterruptIsDoneAndOnlyCompletionSetsDone := by
  refine ⟨fun s => ?output, step_sets_done, fun s v hbusy hbit => ?cleared⟩
  case output =>
    obtain ⟨-, hdone, -⟩ := statusWordHasTheSpecLayout s.status
    rw [hdone, State.irq, cfgIe]
  case cleared =>
    rw [busWrite_ofOffset_idle s v 0x008 .status rfl hbusy]
    simp [State.irq, State.writeReg, hbit]

/-! ### CRYPT's checks -/

/-- R36: the round counts that are not legal. -/
theorem roundsLegal_eq_false (r : Nat) (h : r = 0 ∨ r % 2 = 1) : roundsLegal r = false := by
  rw [← Bool.not_eq_true, roundsLegal_iff]
  omega

section
variable (o : Operands) (s : State)

/-- R202: CRYPT's first check. -/
theorem runCrypt_noTemplate (hvalid : o.tvalid = false) : runCrypt o s = .error .templateNotBuilt := if_pos hvalid

/-- R202: CRYPT's second check. -/
theorem runCrypt_badRounds (hvalid : o.tvalid = true) (hrounds : roundsLegal (cfgRounds o.cfg) = false) :
    runCrypt o s = .error .invalidRoundsValue := by
  rw [runCrypt, if_neg (by simp [hvalid]), if_pos hrounds]

/-- R202: CRYPT's third check. -/
theorem runCrypt_overrun (hvalid : o.tvalid = true) (hrounds : roundsLegal (cfgRounds o.cfg) = true)
    (hlen : s.params.msgBytes < o.len.toNat) : runCrypt o s = .error .lengthOverrun := by
  rw [runCrypt, if_neg (by simp [hvalid]), if_neg (by simp [hrounds]), if_pos hlen]

end

/-- Settles O46: each clause is one check failing after those before it pass. -/
theorem cryptChecksInOrder : Obligations.CryptChecksInOrder := by
  intro s sc
  dsimp only
  rw [← cfgRounds_eq]
  intro hstart
  obtain rfl := startCounter_eq s.operands sc hstart
  have hfails := exec_of_runOf_error .crypt s
  have hlegal := fun hzero heven => (roundsLegal_iff (cfgRounds s.operands.cfg)).2 ⟨hzero, heven⟩
  refine ⟨fun hvalid => ?template, fun hvalid hbad => ?rounds, fun hvalid hzero heven hlen => ?length,
    fun hvalid hzero heven hlen hpos hwide => ?counter⟩
  case template => exact hfails _ (runCrypt_noTemplate _ s hvalid)
  case rounds => exact hfails _ (runCrypt_badRounds _ s hvalid (roundsLegal_eq_false _ hbad))
  case length => exact hfails _ (runCrypt_overrun _ s hvalid (hlegal hzero heven) hlen)
  case counter =>
    have hover := (counterOverflows_blocksNeeded_iff s.operands.tdialect _ _).2 ⟨hpos, hwide⟩
    exact hfails _ (runCrypt_overflow _ s hvalid (hlegal hzero heven) hlen hover)

end Sys2Proof.Machine
end

section
/-! SUPPORT. Reset: R231's values after the reset action of any state, and the invariant at reset. -/

namespace Sys2Proof.Machine

/-- The reset state is what the reset action leaves while no free value has been drawn yet (logs 3 and 4). -/
theorem State.reset_eq_resetAction : State.reset = ({ State.reset with draws := 0 } : State).resetAction := rfl

/-- R231: the register arrays are zero word by word, every other row is a fixed value. -/
theorem State.resetAction_resetValues (s : State) : s.resetAction.ResetValues where
  cfg := rfl
  cfg_fields := (by decide : cfgDialect 0x0C201400 = .ietf ∧ cfgCtrOvr 0x0C201400 = false ∧ cfgIe 0x0C201400 = false ∧
    cfgRounds 0x0C201400 = 20 ∧ cfgKeyLen 0x0C201400 = 32 ∧ cfgNonceLen 0x0C201400 = 12)
  status := (by decide : Status.reset.word = 0)
  len := rfl
  counter := ⟨rfl, rfl⟩
  key n := Vector.getElem_replicate n.isLt
  nonce n := Vector.getElem_replicate n.isLt
  tmpl i := Vector.getElem_replicate i.isLt
  orig i := Vector.getElem_replicate i.isLt
  x i := Vector.getElem_replicate i.isLt
  pend := rfl
  irq := Bool.and_false _

/-- R231, log 4: no byte of MSG is listed after the reset action, so each is the free value of the draw it took. -/
theorem State.resetAction_msg_read (s : State) (a : Nat) :
    s.resetAction.msg.read a = Config.anyMsgByte s.draws a := rfl

theorem State.resetAction_draws (s : State) : s.resetAction.draws = s.draws + 1 := rfl

/-- Settles O10: the step of a reset turn is the reset action, and the reset state is one of its results. -/
theorem resetLeavesTheSpecValues : Obligations.ResetLeavesTheSpecValues := by
  refine ⟨?resetState, fun s hturn => ?resetTurn⟩
  case resetState =>
    rw [State.reset_eq_resetAction]
    exact State.resetAction_resetValues _
  case resetTurn =>
    obtain ⟨t, hstep, -⟩ := everyStateHasANextState s
    obtain rfl := step_of_reset s t hstep hturn
    exact ⟨_, hstep, s.afterTurn.resetAction_resetValues, s.afterTurn.resetAction_msg_read,
      s.afterTurn.resetAction_draws⟩

/-- R43, R51: at reset no template is built, and TMPL, TDIALECT and TKEY32 are the ones reset leaves. -/
theorem State.reset_templateOk : State.reset.TemplateOk := by
  refine ⟨fun _ => ⟨rfl, rfl, rfl⟩, fun hvalid => ?built⟩
  case built => cases hvalid

/-- Settles O11: nothing is in flight at reset, MSG lists no byte, and no template is built. -/
theorem resetStateSatisfiesTheInvariant : Obligations.ResetStateSatisfiesTheInvariant := by
  have hparams : State.reset.params.wf := by decide
  have hcfg : State.reset.cfg &&& cfgMask = State.reset.cfg := by decide
  have hwf : State.reset.msg.wf := List.Pairwise.nil
  have hwithin : State.reset.msg.within State.reset.params.msgBytes := by rintro c ⟨⟩
  exact .of_idle rfl rfl hparams hcfg hwf hwithin State.reset_templateOk

end Sys2Proof.Machine
end

section
/-! SUPPORT. The words of spec/95_test_vectors V1.3 and V10 under the decoder (spec 30_encoding R112, R114, R116): a
command's word is the encoder's, an illegal one falls under a case of R114, which names its rejection. -/

namespace Sys2Proof

/-- R114: the decoder rejects one of its words by the name `rejectionOf` gives. -/
theorem decode_of_illegalWord (w : Word) (h : IllegalWord w) : decode w = .illegal (rejectionOf w) := by
  obtain ⟨r, hr⟩ := (decode_illegal_iff w).2 h
  rw [hr]
  unfold decode at hr
  split_ifs at hr
  exact hr.symm

/-- The decoder's test for an unknown OP, on R111's OP as a number. -/
theorem rejectionOf_eq (w : Word) :
    rejectionOf w = if opNumber w = 0 ∨ 9 ≤ opNumber w then .unknownOp else .reservedBits := by
  rw [rejectionOf, nibble_val, pow_zero, Nat.div_one, opNumber]

/-- R114, first case: OP is no command's. -/
theorem decode_of_unknownOp (w : Word) (hop : opNumber w = 0 ∨ 9 ≤ opNumber w) : decode w = .illegal .unknownOp := by
  rw [decode_of_illegalWord w (.inl hop), rejectionOf_eq, if_pos hop]

/-- R114, second and third case: OP is a command's and a bit its format reserves is 1. -/
theorem decode_of_reservedBits (w : Word) (hop : ¬ (opNumber w = 0 ∨ 9 ≤ opNumber w)) (hbits : IllegalWord w) :
    decode w = .illegal .reservedBits := by
  rw [decode_of_illegalWord w hbits, rejectionOf_eq, if_neg hop]

/-- Settles O1: a command's word by the encoder that writes it, an illegal word by its case of R114. -/
theorem specWordsDecodeToTheirCommands : Obligations.SpecWordsDecodeToTheirCommands := by
  refine ⟨decode_encode .init, decode_encode .ldctr, decode_encode .colr, decode_encode .diagr, decode_encode .ffwd,
    decode_encode .hash, decode_encode .crypt, decode_encode (.qr 0 0 0 0), decode_encode (.qr 0 4 8 12),
    decode_encode (.qr 3 4 9 14), decode_encode (.qr 2 7 8 13), ?op0, ?opF, ?initBit4, ?qrBit24, ?colrBit8⟩
  case op0 | opF => exact decode_of_unknownOp _ (by decide)
  case initBit4 | qrBit24 | colrBit8 => exact decode_of_reservedBits _ (by decide) (by decide)

end Sys2Proof
end
